-- ==== Sys2Proof/Word.lean ====
section
/-! DEFINITION. The word types of the block and the pure bit helpers: bytes, 16-bit words, the
4-bit and 12-bit instruction fields (spec/00_scope.md R7, R9; spec/30_encoding.md R70). -/

namespace Sys2Proof

/-- A 4-bit instruction field: `F`, `X`, `Y` or `N` (R70). -/
abbrev Nibble := BitVec 4

/-- A data byte: a general register, a timer, a memory byte, an `NN` immediate (R7, R72). -/
abbrev Byte := BitVec 8

/-- The 12-bit `NNN` address field (R70, R72). -/
abbrev Addr := BitVec 12

/-- A 16-bit word: an instruction, the index register, the program counter, a stack slot (R7). -/
abbrev Word := BitVec 16

end Sys2Proof
end

