-- ==== Sys2Proof/Config.lean ====
section
/-! DEFINITION. What stands outside the block's own determinism: the randomness source
(spec/00_scope.md R8, spec/40_cycle_engine.md R98). The other two parameters of R8, `FONT` and
`MAX_IMAGE_LEN`, have default values in the spec and stand in Machine/Parameters.lean. -/

namespace Sys2Proof

/-- The byte the randomness source yields to the `k`-th `CXNN` of a run: the `rnd` of R8, R46 and
R98, "a free input of every step (a draw, under no law)". FREE VALUE: it has no body, so no
statement can rest on a value of it (log entry 2). -/
opaque Config.rnd : Nat → Byte

end Sys2Proof
end

