-- ==== Sys2Proof/Syntax.lean ====
section
/-! DEFINITION. The instruction set: one constructor per row of spec/opcode_table.json, in the
table's order. Operands are the fields of spec/30_encoding.md R70 to R73, each in the bit width the
encoding gives it, so a value of `Instr` has no operand the encoding cannot hold. -/

namespace Sys2Proof

/-- The 34 instructions (R74). `x` and `y` are the register numbers of the `X` and `Y` fields,
`nn` the byte immediate, `nnn` the 12-bit address, `n` the row count of `DXYN`. -/
inductive Instr where
  /-- `00E0`, CLS: clear the display (R110). -/
  | cls
  /-- `00EE`, RET: return from subroutine (R120). -/
  | ret
  /-- `1NNN`, JP NNN: jump (R121). -/
  | jp (nnn : Addr)
  /-- `2NNN`, CALL NNN: call subroutine (R122). -/
  | call (nnn : Addr)
  /-- `3XNN`, SE Vx, NN: skip if equal to immediate (R131). -/
  | seImm (x : Nibble) (nn : Byte)
  /-- `4XNN`, SNE Vx, NN: skip if not equal to immediate (R132). -/
  | sneImm (x : Nibble) (nn : Byte)
  /-- `5XY0`, SE Vx, Vy: skip if registers equal (R133; the word's low nibble is ignored, R76). -/
  | seReg (x y : Nibble)
  /-- `6XNN`, LD Vx, NN: load immediate (R140). -/
  | ldImm (x : Nibble) (nn : Byte)
  /-- `7XNN`, ADD Vx, NN: add immediate, no flag (R141). -/
  | addImm (x : Nibble) (nn : Byte)
  /-- `8XY0`, LD Vx, Vy: copy register (R144). -/
  | ldReg (x y : Nibble)
  /-- `8XY1`, OR Vx, Vy (R145). -/
  | orReg (x y : Nibble)
  /-- `8XY2`, AND Vx, Vy (R146). -/
  | andReg (x y : Nibble)
  /-- `8XY3`, XOR Vx, Vy (R147). -/
  | xorReg (x y : Nibble)
  /-- `8XY4`, ADD Vx, Vy: add with carry (R148). -/
  | addReg (x y : Nibble)
  /-- `8XY5`, SUB Vx, Vy: subtract (R149). -/
  | subReg (x y : Nibble)
  /-- `8XY6`, SHR Vx: shift right by one; the `Y` field is encoded but not read (R150). -/
  | shr (x y : Nibble)
  /-- `8XY7`, SUBN Vx, Vy: reverse subtract (R151). -/
  | subn (x y : Nibble)
  /-- `8XYE`, SHL Vx: shift left by one; the `Y` field is encoded but not read (R152). -/
  | shl (x y : Nibble)
  /-- `9XY0`, SNE Vx, Vy: skip if registers differ (R134; the word's low nibble is ignored, R76). -/
  | sneReg (x y : Nibble)
  /-- `ANNN`, LD I, NNN: load index (R160). -/
  | ldI (nnn : Addr)
  /-- `BNNN`, JP V0, NNN: jump with offset (R123). -/
  | jpV0 (nnn : Addr)
  /-- `CXNN`, RND Vx, NN: random byte masked (R154). -/
  | rnd (x : Nibble) (nn : Byte)
  /-- `DXYN`, DRW Vx, Vy, N: draw sprite (R111). -/
  | drw (x y n : Nibble)
  /-- `EX9E`, SKP Vx: skip if key pressed (R135). -/
  | skp (x : Nibble)
  /-- `EXA1`, SKNP Vx: skip if key not pressed (R136). -/
  | sknp (x : Nibble)
  /-- `FX07`, LD Vx, DT: read delay timer (R170). -/
  | ldVxDt (x : Nibble)
  /-- `FX0A`, LD Vx, K: wait for a key (R171). -/
  | ldVxK (x : Nibble)
  /-- `FX15`, LD DT, Vx: set delay timer (R172). -/
  | ldDtVx (x : Nibble)
  /-- `FX18`, LD ST, Vx: set sound timer (R173). -/
  | ldStVx (x : Nibble)
  /-- `FX1E`, ADD I, Vx: add register to index (R161). -/
  | addI (x : Nibble)
  /-- `FX29`, LD F, Vx: point index at font glyph (R162). -/
  | ldF (x : Nibble)
  /-- `FX33`, LD B, Vx: store binary-coded decimal (R163). -/
  | ldB (x : Nibble)
  /-- `FX55`, LD [I], Vx: store registers V0..Vx (R164). -/
  | storeRegs (x : Nibble)
  /-- `FX65`, LD Vx, [I]: load registers V0..Vx (R165). -/
  | loadRegs (x : Nibble)
  deriving DecidableEq, Repr

end Sys2Proof
end

