-- ==== Sys2Proof/WellFormed.lean ====
section
/-! DEFINITION. Which words are instructions: the rows of spec/opcode_table.json as mask and match,
and the check that a word is one of them (spec/30_encoding.md R74 to R80). Operands need no check of
their own: "every value legal" (R72), and the constructors of `Instr` hold each field in the width
the encoding gives it. The decoder of Decode.lean is written from the dispatch rules R74 to R79
instead, so the two can be compared. -/

namespace Sys2Proof

/-- One row of the opcode table: the pattern's name, its fixed bits and their values. -/
structure OpcodeRow where
  pattern : String
  mask    : Word
  fixed   : Word
  deriving DecidableEq, Repr

/-- The word carries the row's fixed bits. -/
def OpcodeRow.covers (r : OpcodeRow) (op : Word) : Bool :=
  op &&& r.mask == r.fixed

/-- Families 0 to 7 of the opcode table. -/
def opcodeRowsLow : List OpcodeRow :=
  [⟨"00E0", 0xFFFF, 0x00E0⟩, ⟨"00EE", 0xFFFF, 0x00EE⟩,
   ⟨"1NNN", 0xF000, 0x1000⟩, ⟨"2NNN", 0xF000, 0x2000⟩,
   ⟨"3XNN", 0xF000, 0x3000⟩, ⟨"4XNN", 0xF000, 0x4000⟩,
   ⟨"5XY0", 0xF000, 0x5000⟩, ⟨"6XNN", 0xF000, 0x6000⟩,
   ⟨"7XNN", 0xF000, 0x7000⟩]

/-- Family 8 of the opcode table. -/
def opcodeRowsAlu : List OpcodeRow :=
  [⟨"8XY0", 0xF00F, 0x8000⟩, ⟨"8XY1", 0xF00F, 0x8001⟩, ⟨"8XY2", 0xF00F, 0x8002⟩,
   ⟨"8XY3", 0xF00F, 0x8003⟩, ⟨"8XY4", 0xF00F, 0x8004⟩, ⟨"8XY5", 0xF00F, 0x8005⟩,
   ⟨"8XY6", 0xF00F, 0x8006⟩, ⟨"8XY7", 0xF00F, 0x8007⟩, ⟨"8XYE", 0xF00F, 0x800E⟩]

/-- Families 9 to F of the opcode table. -/
def opcodeRowsHigh : List OpcodeRow :=
  [⟨"9XY0", 0xF000, 0x9000⟩, ⟨"ANNN", 0xF000, 0xA000⟩, ⟨"BNNN", 0xF000, 0xB000⟩,
   ⟨"CXNN", 0xF000, 0xC000⟩, ⟨"DXYN", 0xF000, 0xD000⟩,
   ⟨"EX9E", 0xF0FF, 0xE09E⟩, ⟨"EXA1", 0xF0FF, 0xE0A1⟩,
   ⟨"FX07", 0xF0FF, 0xF007⟩, ⟨"FX0A", 0xF0FF, 0xF00A⟩, ⟨"FX15", 0xF0FF, 0xF015⟩,
   ⟨"FX18", 0xF0FF, 0xF018⟩, ⟨"FX1E", 0xF0FF, 0xF01E⟩, ⟨"FX29", 0xF0FF, 0xF029⟩,
   ⟨"FX33", 0xF0FF, 0xF033⟩, ⟨"FX55", 0xF0FF, 0xF055⟩, ⟨"FX65", 0xF0FF, 0xF065⟩]

/-- The 34 rows of spec/opcode_table.json, in its order. -/
def opcodeTable : List OpcodeRow :=
  opcodeRowsLow ++ opcodeRowsAlu ++ opcodeRowsHigh

/-- The word is a defined instruction: some row covers it. The words it refuses are the illegal
encodings of R80, in families 0, 8, E and F. -/
def legalWord (op : Word) : Bool :=
  opcodeTable.any (·.covers op)

end Sys2Proof
end

