-- ==== Sys2Proof/Decode.lean ====
section
/-! DEFINITION. The decoder and the encoder of spec/30_encoding.md. Decoding is total on every
16-bit word (R81) and on every list of bytes; what is no instruction is rejected by name. The
encoder writes each instruction's word from the format table R73. -/

namespace Sys2Proof

/-- `F = op[15:12]`, the family (R71). -/
def fieldF (op : Word) : Nibble := op.extractLsb' 12 4
/-- `X = op[11:8]` (R71). -/
def fieldX (op : Word) : Nibble := op.extractLsb' 8 4
/-- `Y = op[7:4]` (R71). -/
def fieldY (op : Word) : Nibble := op.extractLsb' 4 4
/-- `N = op[3:0]` (R71). -/
def fieldN (op : Word) : Nibble := op.extractLsb' 0 4
/-- `NN = op[7:0]` (R71). -/
def fieldNN (op : Word) : Byte := op.extractLsb' 0 8
/-- `NNN = op[11:0]` (R71). -/
def fieldNNN (op : Word) : Addr := op.extractLsb' 0 12

/-- Family 0, on the whole word (R75): every word but `00E0` and `00EE` is undefined. -/
def decodeFamily0 (op : Word) : Option Instr :=
  if op = 0x00E0#16 then some .cls
  else if op = 0x00EE#16 then some .ret
  else none

/-- Family 8, on the low nibble (R77). -/
def decodeFamily8 (x y n : Nibble) : Option Instr :=
  if n = 0x0#4 then some (.ldReg x y)
  else if n = 0x1#4 then some (.orReg x y)
  else if n = 0x2#4 then some (.andReg x y)
  else if n = 0x3#4 then some (.xorReg x y)
  else if n = 0x4#4 then some (.addReg x y)
  else if n = 0x5#4 then some (.subReg x y)
  else if n = 0x6#4 then some (.shr x y)
  else if n = 0x7#4 then some (.subn x y)
  else if n = 0xE#4 then some (.shl x y)
  else none

/-- Family E, on the low byte (R78). -/
def decodeFamilyE (x : Nibble) (nn : Byte) : Option Instr :=
  if nn = 0x9E#8 then some (.skp x)
  else if nn = 0xA1#8 then some (.sknp x)
  else none

/-- Family F, on the low byte (R79). -/
def decodeFamilyF (x : Nibble) (nn : Byte) : Option Instr :=
  if nn = 0x07#8 then some (.ldVxDt x)
  else if nn = 0x0A#8 then some (.ldVxK x)
  else if nn = 0x15#8 then some (.ldDtVx x)
  else if nn = 0x18#8 then some (.ldStVx x)
  else if nn = 0x1E#8 then some (.addI x)
  else if nn = 0x29#8 then some (.ldF x)
  else if nn = 0x33#8 then some (.ldB x)
  else if nn = 0x55#8 then some (.storeRegs x)
  else if nn = 0x65#8 then some (.loadRegs x)
  else none

/-- The opcode map (R74): dispatch on the family, then the sub-dispatch of families 0, 8, E and F.
Families 5 and 9 ignore the low nibble (R76, 92_eei_decisions.md D7; log entry 11). `none` is the
spec's `UnknownOpcode`. -/
def decodeWord (op : Word) : Option Instr :=
  let f := fieldF op
  if f = 0x0#4 then decodeFamily0 op
  else if f = 0x1#4 then some (.jp (fieldNNN op))
  else if f = 0x2#4 then some (.call (fieldNNN op))
  else if f = 0x3#4 then some (.seImm (fieldX op) (fieldNN op))
  else if f = 0x4#4 then some (.sneImm (fieldX op) (fieldNN op))
  else if f = 0x5#4 then some (.seReg (fieldX op) (fieldY op))
  else if f = 0x6#4 then some (.ldImm (fieldX op) (fieldNN op))
  else if f = 0x7#4 then some (.addImm (fieldX op) (fieldNN op))
  else if f = 0x8#4 then decodeFamily8 (fieldX op) (fieldY op) (fieldN op)
  else if f = 0x9#4 then some (.sneReg (fieldX op) (fieldY op))
  else if f = 0xA#4 then some (.ldI (fieldNNN op))
  else if f = 0xB#4 then some (.jpV0 (fieldNNN op))
  else if f = 0xC#4 then some (.rnd (fieldX op) (fieldNN op))
  else if f = 0xD#4 then some (.drw (fieldX op) (fieldY op) (fieldN op))
  else if f = 0xE#4 then decodeFamilyE (fieldX op) (fieldNN op)
  else decodeFamilyF (fieldX op) (fieldNN op)

/-- A word made of two bytes, the first being bits 15:8 (R51: big-endian). -/
def wordOfBytes (hi lo : Byte) : Word := hi ++ lo

/-- The high byte of a word, stored at the lower address (R51). -/
def highByte (op : Word) : Byte := op.extractLsb' 8 8

/-- The low byte of a word, stored at the higher address (R51). -/
def lowByte (op : Word) : Byte := op.extractLsb' 0 8

/-- Why a list of bytes is no instruction. -/
inductive DecodeError where
  /-- The word is one of the illegal encodings of R80. -/
  | unknownOpcode (op : Word)
  /-- Fewer than the two bytes every instruction has (R82). -/
  | truncated
  deriving DecidableEq, Repr

/-- Decode the instruction at the front of a byte stream, with the bytes after it. -/
def decode : List Byte → Except DecodeError (Instr × List Byte)
  | hi :: lo :: rest =>
    match decodeWord (wordOfBytes hi lo) with
    | some i => .ok (i, rest)
    | none => .error (.unknownOpcode (wordOfBytes hi lo))
  | _ => .error .truncated

/-- The word of an instruction (R73). Where the format has a nibble the instruction ignores
(families 5 and 9), the word is the canonical pattern with that nibble 0. -/
def encode : Instr → Word
  | .cls => 0x00E0#16
  | .ret => 0x00EE#16
  | .jp nnn => 0x1#4 ++ nnn
  | .call nnn => 0x2#4 ++ nnn
  | .seImm x nn => 0x3#4 ++ x ++ nn
  | .sneImm x nn => 0x4#4 ++ x ++ nn
  | .seReg x y => 0x5#4 ++ x ++ y ++ 0x0#4
  | .ldImm x nn => 0x6#4 ++ x ++ nn
  | .addImm x nn => 0x7#4 ++ x ++ nn
  | .ldReg x y => 0x8#4 ++ x ++ y ++ 0x0#4
  | .orReg x y => 0x8#4 ++ x ++ y ++ 0x1#4
  | .andReg x y => 0x8#4 ++ x ++ y ++ 0x2#4
  | .xorReg x y => 0x8#4 ++ x ++ y ++ 0x3#4
  | .addReg x y => 0x8#4 ++ x ++ y ++ 0x4#4
  | .subReg x y => 0x8#4 ++ x ++ y ++ 0x5#4
  | .shr x y => 0x8#4 ++ x ++ y ++ 0x6#4
  | .subn x y => 0x8#4 ++ x ++ y ++ 0x7#4
  | .shl x y => 0x8#4 ++ x ++ y ++ 0xE#4
  | .sneReg x y => 0x9#4 ++ x ++ y ++ 0x0#4
  | .ldI nnn => 0xA#4 ++ nnn
  | .jpV0 nnn => 0xB#4 ++ nnn
  | .rnd x nn => 0xC#4 ++ x ++ nn
  | .drw x y n => 0xD#4 ++ x ++ y ++ n
  | .skp x => 0xE#4 ++ x ++ 0x9E#8
  | .sknp x => 0xE#4 ++ x ++ 0xA1#8
  | .ldVxDt x => 0xF#4 ++ x ++ 0x07#8
  | .ldVxK x => 0xF#4 ++ x ++ 0x0A#8
  | .ldDtVx x => 0xF#4 ++ x ++ 0x15#8
  | .ldStVx x => 0xF#4 ++ x ++ 0x18#8
  | .addI x => 0xF#4 ++ x ++ 0x1E#8
  | .ldF x => 0xF#4 ++ x ++ 0x29#8
  | .ldB x => 0xF#4 ++ x ++ 0x33#8
  | .storeRegs x => 0xF#4 ++ x ++ 0x55#8
  | .loadRegs x => 0xF#4 ++ x ++ 0x65#8

/-- The word the opcode table numbers `w`, in its low `nbits` bits (bits above them are 0). Every
instruction is one word (R70), whose bit 0 is bit 0 of `w`. -/
def tableWord (nbits w : Nat) : Word := BitVec.ofNat 16 (w % 2 ^ nbits)

/-- The bytes of that word as memory holds them, high byte first (R51). -/
def tableBytes (nbits w : Nat) : List Byte :=
  [highByte (tableWord nbits w), lowByte (tableWord nbits w)]

/-- What the decoder reads from an instruction numbered as spec/opcode_table.json numbers its
bits. -/
def decodeTableWord (nbits w : Nat) : Option Instr :=
  match decode (tableBytes nbits w) with
  | .ok (i, _) => some i
  | .error _ => none

end Sys2Proof
end

