-- ==== Sys2Proof/Machine/Parameters.lean ====
section
/-! DEFINITION. The two parameters of spec/00_scope.md R8 that have a default value: `FONT` and
`MAX_IMAGE_LEN`. The operations that install a font or load an image take the parameter as an
argument (Machine/Interface.lean); the values here are the spec's defaults. -/

namespace Sys2Proof.Machine

/-- `FONT`: the 80 bytes at 0x000..0x04F, one glyph of five bytes a line (R39). PRESUMED: the
spec's default, "from general knowledge, not in source" (92_eei_decisions.md D16); unsafe for any
claim about glyph pixels (log entry 3). -/
def font : Vector Byte 80 := #v[
  0xF0, 0x90, 0x90, 0x90, 0xF0,
  0x20, 0x60, 0x20, 0x20, 0x70,
  0xF0, 0x10, 0xF0, 0x80, 0xF0,
  0xF0, 0x10, 0xF0, 0x10, 0xF0,
  0x90, 0x90, 0xF0, 0x10, 0x10,
  0xF0, 0x80, 0xF0, 0x10, 0xF0,
  0xF0, 0x80, 0xF0, 0x90, 0xF0,
  0xF0, 0x10, 0x20, 0x40, 0x40,
  0xF0, 0x90, 0xF0, 0x90, 0xF0,
  0xF0, 0x90, 0xF0, 0x10, 0xF0,
  0xF0, 0x90, 0xF0, 0x90, 0x90,
  0xE0, 0x90, 0xE0, 0x90, 0xE0,
  0xF0, 0x80, 0x80, 0x80, 0xF0,
  0xE0, 0x90, 0x90, 0x90, 0xE0,
  0xF0, 0x80, 0xF0, 0x80, 0xF0,
  0xF0, 0x80, 0xF0, 0x80, 0x80]

/-- `MAX_IMAGE_LEN`: the largest image `load` accepts, the reference behaviour 0xC9F; the source
allows bounds up to 0xE00 (R8, R211, 92_eei_decisions.md D15; log entry 4). -/
def maxImageLen : Fin 0xE01 := 0xC9F

end Sys2Proof.Machine
end

