-- ==== Sys2Proof/Machine/State.lean ====
section
/-! DEFINITION. The state of the block (spec/10_state.md R20), its state after `initialize()` (R40)
and the reasons a step can stop (spec/60_exceptions.md R181). -/

namespace Sys2Proof.Machine

/-- Memory as the list of the bytes that differ from the reset contents, addresses rising (R34;
canonical form `Memory.wf` in Machine/Ops.lean, log entry 8). -/
abbrev Memory := List Host.Cell

/-- The 64 by 32 grid of one-bit pixels, bit `col + row * 64` being the pixel at column `col` and
row `row` (R32; log entry 9). -/
abbrev Framebuffer := BitVec 2048

/-- The whole state, `CpuState` (R20). -/
structure State where
  /-- 4096 bytes (R34). -/
  memory       : Memory
  /-- V0..VF (R21). -/
  registers    : Vector Byte 16
  /-- The index register I (R25). -/
  index        : Word
  /-- The program counter (R26). -/
  pc           : Word
  /-- The 16 return-address slots (R29). -/
  stack        : Vector Word 16
  /-- The next free slot, 0 for empty, 16 for full (R29). -/
  sp           : Fin 17
  /-- The delay timer DT (R31). -/
  delayTimer   : Byte
  /-- The sound timer ST (R31). -/
  soundTimer   : Byte
  /-- The display (R32). -/
  framebuffer  : Framebuffer
  /-- The key states, true for pressed (R33). -/
  keypad       : Vector Bool 16
  /-- The model's own field: how many random bytes `CXNN` has consumed (log entry 1). -/
  draws        : Nat
  deriving DecidableEq, Repr

/-- The state `initialize()` leaves (R40). Memory lists nothing: an unlisted address reads as the
reset contents. `draws` is a DESIGN CHOICE (log entry 2). -/
def State.reset : State where
  memory := []
  registers := Vector.replicate 16 0#8
  index := 0x0000#16
  pc := 0x0200#16
  stack := Vector.replicate 16 0x0000#16
  sp := 0
  delayTimer := 0x00#8
  soundTimer := 0x00#8
  framebuffer := 0#2048
  keypad := Vector.replicate 16 false
  draws := 0

/-- The failure kinds of a step (R181), each with the opcode where one was fetched and the address
the instruction was fetched from. All of them are the spec's own; the step then changes no state
(R182). SAFE: where the source leaves a case open the spec fails the step (log entry 13). -/
inductive Fault where
  /-- Raised by `2NNN` when the stack holds 16 entries (R183). Safe. -/
  | stackOverflow (opcode pc : Word)
  /-- Raised by `00EE` when the stack is empty (R185). Safe. -/
  | stackUnderflow (opcode pc : Word)
  /-- Raised by the decode phase for an illegal word (R184). Safe. -/
  | unknownOpcode (opcode pc : Word)
  /-- `AddressOutOfRange(fetch, pc)`: raised by the fetch at pc ≥ 0xFFF (R58, R187). Safe. -/
  | fetchOutOfRange (pc : Word)
  /-- `AddressOutOfRange(data, opcode, pc)`: raised by `DXYN`, `FX33`, `FX55` and `FX65` when an
  address of their range exceeds 0xFFF (R59, R187). Safe. -/
  | dataOutOfRange (opcode pc : Word)
  /-- Raised by `EX9E`, `EXA1` and `FX29` when Vx > 15 (R186). Safe. -/
  | undefinedOperand (opcode pc : Word)
  deriving DecidableEq, Repr

/-- Why an instruction has no meaning. Every instruction of the spec has one, so no arm uses it. -/
inductive Refusal where
  /-- Raised by `exec` for an instruction not modelled; safe. No arm raises it. -/
  | notModelled (mnemonic : String)
  deriving DecidableEq, Repr

/-- What a meaning or a step answers. -/
abbrev Result := Host.Outcome State Fault Refusal

end Sys2Proof.Machine
end

