-- ==== Sys2Proof/Machine/Ops.lean ====
section
/-! DEFINITION. The named operations over memory, registers, stack, pc and timers that the meanings
are written in (spec/10_state.md, spec/20_memory.md), and the one way an instruction fails
(spec/60_exceptions.md R180 to R190). -/

namespace Sys2Proof.Machine

/-! ### Memory -/

/-- What an address that memory does not list reads as: the reset contents, `FONT` below 0x050 and
0x00 above (R40; log entry 8). -/
def Memory.unlisted (a : Nat) : Byte := font[a]?.getD 0x00#8

/-- `memory[a]`. At `a > 0xFFF` no instruction reads (R55); there the value is 0x00 and unused. -/
def Memory.read : Memory → Nat → Byte
  | [], a => Memory.unlisted a
  | (b, v) :: rest, a => if b = a then v else Memory.read rest a

/-- List the byte `v` at `a`, keeping addresses rising. -/
def Memory.insert : Memory → Nat → Byte → Memory
  | [], a, v => [(a, v)]
  | (b, w) :: rest, a, v =>
    if a < b then (a, v) :: (b, w) :: rest
    else if a = b then (a, v) :: rest
    else (b, w) :: Memory.insert rest a v

/-- List nothing at `a`. -/
def Memory.remove (m : Memory) (a : Nat) : Memory := m.filter (fun c => c.1 != a)

/-- `MemWrite(a, 1, v)` (R55): an access at `a > 0xFFF` is never performed. A byte equal to the
reset contents is unlisted, so equal memories are equal lists. -/
def Memory.write (m : Memory) (a : Nat) (v : Byte) : Memory :=
  if a ≤ 0xFFF then
    if v = Memory.unlisted a then Memory.remove m a else Memory.insert m a v
  else m

/-- Store the bytes at `a`, `a + 1`, and so on, in that order. -/
def Memory.writeBytes : Memory → Nat → List Byte → Memory
  | m, _, [] => m
  | m, a, v :: rest => Memory.writeBytes (m.write a v) (a + 1) rest

/-- The `n` bytes at `a`, `a + 1`, and so on. -/
def Memory.readBytes (m : Memory) (a n : Nat) : List Byte :=
  (List.range n).map (fun k => m.read (a + k))

/-- The canonical form: addresses strictly rising and within 0x000..0xFFF, and no byte listed that
the address reads as unlisted. -/
def Memory.wf : Memory → Bool
  | [] => true
  | (a, v) :: rest =>
    decide (a ≤ 0xFFF) && decide (v ≠ Memory.unlisted a) &&
      rest.all (fun c => decide (a < c.1)) && Memory.wf rest

/-- Every address of an access of `n` bytes at `a` is at most 0xFFF (R59); true for no byte. -/
def inMemory (a n : Nat) : Bool := n == 0 || decide (a + n - 1 ≤ 0xFFF)

/-- Read `n` bytes at `a`, the whole range checked first (R56, R59): `none` is out of range. -/
def State.readBlock (s : State) (a n : Nat) : Option (List Byte) :=
  if inMemory a n then some (s.memory.readBytes a n) else none

/-- Store bytes at `a`, the whole range checked first (R56, R59): `none` is out of range. -/
def State.writeBlock (s : State) (a : Nat) (bytes : List Byte) : Option State :=
  if inMemory a bytes.length then some { s with memory := s.memory.writeBytes a bytes } else none

/-! ### General registers -/

/-- `x[i]` (R10, R21). -/
def State.getReg (s : State) (x : Nibble) : Byte := s.registers[x.toNat]'x.isLt

/-- `x[i] <- v` (R10, R21): no register is hardwired. -/
def State.setReg (s : State) (x : Nibble) (v : Byte) : State :=
  { s with registers := s.registers.set x.toNat v x.isLt }

/-- V0..V(k-1) take the `k` given bytes, the others stay (R165). -/
def State.setFirstRegs (s : State) (bytes : List Byte) : State :=
  { s with registers := Vector.ofFn (fun k : Fin 16 => bytes[k.val]?.getD s.registers[k]) }

/-! ### Index register, timers, framebuffer -/

/-- `I <- v` (R25). -/
def State.setIndex (s : State) (v : Word) : State := { s with index := v }

/-- `DT <- v` (R172). -/
def State.setDelay (s : State) (v : Byte) : State := { s with delayTimer := v }

/-- `ST <- v` (R173). -/
def State.setSound (s : State) (v : Byte) : State := { s with soundTimer := v }

/-- Put a new picture in the framebuffer (R32). -/
def State.setFramebuffer (s : State) (fb : Framebuffer) : State := { s with framebuffer := fb }

/-! ### Program counter -/

/-- `pc <- t` (R26). -/
def State.jump (s : State) (t : Word) : State := { s with pc := t }

/-- The fetch's advance of pc by 2, mod 2^16 (R28, R92). -/
def State.advance (s : State) : State := s.jump (s.pc + 2#16)

/-- A skip: 2 more when the condition holds (R130). -/
def State.skipIf (s : State) (c : Bool) : State := if c then s.advance else s

/-- The address `p` the executing instruction was fetched from: pc holds `p + 2` (R26, R92). -/
def State.instrAddr (s : State) : Word := s.pc - 2#16

/-- pc back at the executing instruction, so the next step fetches it again (R171). -/
def State.repeatInstr (s : State) : State := s.jump s.instrAddr

/-! ### Call stack -/

/-- Push pc (R29, R122); `none` is the full stack. -/
def State.push (s : State) : Option State :=
  if h : s.sp.val < 16 then
    some { s with stack := s.stack.set s.sp.val s.pc h, sp := ⟨s.sp.val + 1, by omega⟩ }
  else none

/-- Pop into pc (R29, R120); the slot is not cleared (R30); `none` is the empty stack. -/
def State.pop (s : State) : Option State :=
  if h : 0 < s.sp.val then
    some { s with
      pc := s.stack[s.sp.val - 1]'(by omega)
      sp := ⟨s.sp.val - 1, by omega⟩ }
  else none

/-! ### Failing, and the answer of an operation that may be out of bounds -/

/-- The executing instruction fails with this kind, its word and its address (R38, R181). Failure
entry saves nothing and changes nothing (R182, R189), and there is no return from it (R190). -/
def State.fail (s : State) (kind : Word → Word → Fault) (i : Instr) : Result :=
  .fault (kind (encode i) s.instrAddr)

/-- Go on with what an operation gave, or fail with this kind. -/
def State.orFail {α : Type} (s : State) (kind : Word → Word → Fault) (i : Instr) (o : Option α)
    (next : α → State) : Result :=
  match o with
  | some a => .next (next a)
  | none => s.fail kind i

/-! ### Fetch and timer countdown -/

/-- The fetch (R51, R58, R92): the two bytes at pc and pc + 1, big-endian; `none` when the second
lies past 0xFFF. -/
def State.fetch (s : State) : Option Word :=
  if s.pc.toNat + 1 ≤ 0xFFF then
    some (wordOfBytes (s.memory.read s.pc.toNat) (s.memory.read (s.pc.toNat + 1)))
  else none

/-- A timer counts down by one toward zero (R31, R195). -/
def countDown (t : Byte) : Byte := if t = 0#8 then 0#8 else t - 1#8

/-- `timer_tick()` on the state (R195). -/
def State.tick (s : State) : State :=
  { s with delayTimer := countDown s.delayTimer, soundTimer := countDown s.soundTimer }

/-- The `sound_expired` value `timer_tick()` returns, from the state before it (R195, R196). -/
def State.soundExpires (s : State) : Bool := s.soundTimer == 1#8

/-- Store a word where the next step fetches: its bytes at pc and pc + 1 (R51). -/
def State.placeWord (s : State) (op : Word) : State :=
  { s with memory := s.memory.writeBytes s.pc.toNat [highByte op, lowByte op] }

end Sys2Proof.Machine
end

