-- ==== Sys2Proof/Machine/Flags.lean ====
section
/-! DEFINITION. The flag values of spec/44_alu.md and the order in which a result and its flag are
written. VF is the only flag (spec/10_state.md R22). -/

namespace Sys2Proof.Machine

/-- A flag as the byte VF receives. -/
def flagByte (c : Bool) : Byte := if c then 1#8 else 0#8

/-- Carry of an 8-bit addition: `vx + vy > 255` (R148). -/
def carry (vx vy : Byte) : Bool := decide (vx.toNat + vy.toNat > 255)

/-- No borrow in `a - b`: `a ≥ b` (R149, R151). -/
def noBorrow (a b : Byte) : Bool := decide (a.toNat ≥ b.toNat)

/-- The bit a right shift by one shifts out (R150). -/
def lowBit (v : Byte) : Bool := v.getLsbD 0

/-- The bit a left shift by one shifts out (R152). -/
def highBit (v : Byte) : Bool := v.getLsbD 7

/-- `x[15] <- flag` (R22). -/
def State.setFlag (s : State) (c : Bool) : State := s.setReg 0xF#4 (flagByte c)

/-- The result to Vx first, the flag to VF last, so that the flag stays when X = 15 (R143). -/
def State.setResultFlag (s : State) (x : Nibble) (v : Byte) (c : Bool) : State :=
  (s.setReg x v).setFlag c

end Sys2Proof.Machine
end

