-- ==== Sys2Proof/Machine/Alu.lean ====
section
/-! DEFINITION. The meanings of the register loads, the ALU and the random byte (spec/44_alu.md).
Both operands are read from the state before any register is written (R142). -/

namespace Sys2Proof.Machine

/-- `6XNN` (R140). -/
def execLdImm (x : Nibble) (nn : Byte) (s : State) : Result := .next (s.setReg x nn)

/-- `7XNN` (R141): no flag. -/
def execAddImm (x : Nibble) (nn : Byte) (s : State) : Result := .next (s.setReg x (s.getReg x + nn))

/-- `8XY0` (R144). -/
def execLdReg (x y : Nibble) (s : State) : Result := .next (s.setReg x (s.getReg y))

/-- `8XY1` (R145): VF is not reset. -/
def execOrReg (x y : Nibble) (s : State) : Result := .next (s.setReg x (s.getReg x ||| s.getReg y))

/-- `8XY2` (R146): VF is not reset. -/
def execAndReg (x y : Nibble) (s : State) : Result := .next (s.setReg x (s.getReg x &&& s.getReg y))

/-- `8XY3` (R147): VF is not reset. -/
def execXorReg (x y : Nibble) (s : State) : Result := .next (s.setReg x (s.getReg x ^^^ s.getReg y))

/-- `8XY4` (R148). -/
def execAddReg (x y : Nibble) (s : State) : Result :=
  .next (s.setResultFlag x (s.getReg x + s.getReg y) (carry (s.getReg x) (s.getReg y)))

/-- `8XY5` (R149). -/
def execSubReg (x y : Nibble) (s : State) : Result :=
  .next (s.setResultFlag x (s.getReg x - s.getReg y) (noBorrow (s.getReg x) (s.getReg y)))

/-- `8XY6` (R150): Vy is not read; VF takes the bit shifted out (92_eei_decisions.md D8). -/
def execShr (x _y : Nibble) (s : State) : Result :=
  .next (s.setResultFlag x (s.getReg x >>> 1) (lowBit (s.getReg x)))

/-- `8XY7` (R151). -/
def execSubn (x y : Nibble) (s : State) : Result :=
  .next (s.setResultFlag x (s.getReg y - s.getReg x) (noBorrow (s.getReg y) (s.getReg x)))

/-- `8XYE` (R152): Vy is not read; VF takes the bit shifted out (92_eei_decisions.md D8). -/
def execShl (x _y : Nibble) (s : State) : Result :=
  .next (s.setResultFlag x (s.getReg x <<< 1) (highBit (s.getReg x)))

/-- `CXNN` with the byte `rnd` of its step (R154): one byte of the source is consumed. -/
def rndWith (rnd : Byte) (x : Nibble) (nn : Byte) (s : State) : State :=
  { s.setReg x (rnd &&& nn) with draws := s.draws + 1 }

/-- `CXNN` (R154): the step's `rnd` is a free value (R98; log entry 1). -/
def execRnd (x : Nibble) (nn : Byte) (s : State) : Result :=
  .next (rndWith (Config.rnd s.draws) x nn s)

end Sys2Proof.Machine
end

