-- ==== Sys2Proof/Machine/Operands.lean ====
section
/-! DEFINITION. Operand forms (spec/30_encoding.md R72) and the values instructions take from or
give to registers, memory and the keypad. -/

namespace Sys2Proof.Machine

/-- `zext_16(NNN)`, where a 12-bit address is written to pc or I (R72). -/
def addrToWord (nnn : Addr) : Word := nnn.setWidth 16

/-- `zext_16` of a byte, where a register is added to I or to NNN (R123, R161). -/
def byteToWord (v : Byte) : Word := v.setWidth 16

/-- `V0`, the register `BNNN` reads whatever its X nibble holds (R123). -/
def State.getV0 (s : State) : Byte := s.getReg 0x0#4

/-- V0..Vx, in order (R164). -/
def State.firstRegs (s : State) (x : Nibble) : List Byte := s.registers.toList.take (x.toNat + 1)

/-- The number of registers in V0..Vx (R52). -/
def blockLength (x : Nibble) : Nat := x.toNat + 1

/-- Hundreds, tens and ones of a byte (R163). -/
def bcdDigits (v : Byte) : List Byte :=
  [BitVec.ofNat 8 (v.toNat / 100), BitVec.ofNat 8 (v.toNat / 10 % 10), BitVec.ofNat 8 (v.toNat % 10)]

/-- The address of the glyph of a digit, `Vx * 5`; `none` when Vx > 15 has no meaning (R162). -/
def glyphAddress (v : Byte) : Option Word :=
  if v.toNat ≤ 15 then some (BitVec.ofNat 16 (v.toNat * 5)) else none

/-- `key[k]` for the key number in a register; `none` when it exceeds 15 (R135, R136). -/
def State.keyPressed (s : State) (k : Byte) : Option Bool := s.keypad[k.toNat]?

/-- The least pressed key; `none` when no key is pressed (R171). -/
def State.leastPressedKey (s : State) : Option Nat := s.keypad.toList.findIdx? (fun down => down)

end Sys2Proof.Machine
end

