-- ==== Sys2Proof/Machine/ControlFlow.lean ====
section
/-! DEFINITION. The meanings of the control transfers (spec/42_control_flow.md). -/

namespace Sys2Proof.Machine

/-- `00EE` (R120). -/
def execRet (s : State) : Result := s.orFail .stackUnderflow .ret s.pop id

/-- `1NNN` (R121). -/
def execJp (nnn : Addr) (s : State) : Result := .next (s.jump (addrToWord nnn))

/-- `2NNN` (R122): pc is p + 2, the return address. -/
def execCall (nnn : Addr) (s : State) : Result :=
  s.orFail .stackOverflow (.call nnn) s.push (fun t => t.jump (addrToWord nnn))

/-- `BNNN` (R123): the sum is at most 0x10FE, so 16 bits never wrap. -/
def execJpV0 (nnn : Addr) (s : State) : Result :=
  .next (s.jump (byteToWord s.getV0 + addrToWord nnn))

end Sys2Proof.Machine
end

