-- ==== Sys2Proof/Machine/Sprite.lean ====
section
/-! DEFINITION. Drawing a sprite into the framebuffer (spec/41_display.md R111): which pixels a
sprite covers, and flipping them one after another while noting a collision. -/

namespace Sys2Proof.Machine

/-- `fb[k]` (R10, R32). -/
def Framebuffer.pixel (fb : Framebuffer) (k : Nat) : Bool := fb.getLsbD k

/-- `fb[k] <- fb[k] XOR 1` (R111). -/
def Framebuffer.flip (fb : Framebuffer) (k : Nat) : Framebuffer := fb ^^^ BitVec.twoPow 2048 k

/-- The index of the pixel at column `c mod 64` and row `r mod 32` (R32, R111): sprites wrap. -/
def pixelIndex (c r : Nat) : Nat := c % 64 + r % 32 * 64

/-- The pixels one sprite byte covers from column `c` in row `r`: one for each set bit, bit `j`
counted from the most significant (R111). -/
def rowPixels (b : Byte) (c r : Nat) : List Nat :=
  ((List.range 8).filter (fun j => b.getLsbD (7 - j))).map (fun j => pixelIndex (c + j) r)

/-- The pixels a sprite covers, row after row (R111). -/
def spritePixels : List Byte → Nat → Nat → List Nat
  | [], _, _ => []
  | b :: rest, c, r => rowPixels b c r ++ spritePixels rest c (r + 1)

/-- Flip these pixels in order; the Boolean becomes true when one of them was set before its flip
(R111). -/
def flipPixels : List Nat → Framebuffer → Bool → Framebuffer × Bool
  | [], fb, hit => (fb, hit)
  | k :: rest, fb, hit => flipPixels rest (fb.flip k) (hit || fb.pixel k)

/-- Draw sprite bytes at (vx, vy): the framebuffer, then the collision flag in VF (R111). -/
def State.drawSprite (s : State) (bytes : List Byte) (vx vy : Byte) : State :=
  let drawn := flipPixels (spritePixels bytes vx.toNat vy.toNat) s.framebuffer false
  (s.setFramebuffer drawn.1).setFlag drawn.2

end Sys2Proof.Machine
end

