-- ==== Sys2Proof/Machine/Display.lean ====
section
/-! DEFINITION. The meanings of the display instructions (spec/41_display.md). A meaning sees
pc = p + 2 and leaves the timer countdown to the step (spec/40_cycle_engine.md R92, R96). -/

namespace Sys2Proof.Machine

/-- `00E0` (R110). -/
def execCls (s : State) : Result := .next (s.setFramebuffer 0#2048)

/-- `DXYN` (R111): the coordinates are read before VF is written. -/
def execDrw (x y n : Nibble) (s : State) : Result :=
  s.orFail .dataOutOfRange (.drw x y n) (s.readBlock s.index.toNat n.toNat)
    (fun bytes => s.drawSprite bytes (s.getReg x) (s.getReg y))

end Sys2Proof.Machine
end

