-- ==== Sys2Proof/Machine/IndexMemory.lean ====
section
/-! DEFINITION. The meanings of the index register and memory-block instructions
(spec/45_index_and_memory.md). -/

namespace Sys2Proof.Machine

/-- `ANNN` (R160). -/
def execLdI (nnn : Addr) (s : State) : Result := .next (s.setIndex (addrToWord nnn))

/-- `FX1E` (R161): mod 65536, no flag. -/
def execAddI (x : Nibble) (s : State) : Result :=
  .next (s.setIndex (s.index + byteToWord (s.getReg x)))

/-- `FX29` (R162). -/
def execLdF (x : Nibble) (s : State) : Result :=
  s.orFail .undefinedOperand (.ldF x) (glyphAddress (s.getReg x)) (fun a => s.setIndex a)

/-- `FX33` (R163). -/
def execLdB (x : Nibble) (s : State) : Result :=
  s.orFail .dataOutOfRange (.ldB x) (s.writeBlock s.index.toNat (bcdDigits (s.getReg x))) id

/-- `FX55` (R164). -/
def execStoreRegs (x : Nibble) (s : State) : Result :=
  s.orFail .dataOutOfRange (.storeRegs x) (s.writeBlock s.index.toNat (s.firstRegs x)) id

/-- `FX65` (R165). -/
def execLoadRegs (x : Nibble) (s : State) : Result :=
  s.orFail .dataOutOfRange (.loadRegs x) (s.readBlock s.index.toNat (blockLength x))
    (fun bytes => s.setFirstRegs bytes)

end Sys2Proof.Machine
end

