-- ==== Sys2Proof/Machine/Skips.lean ====
section
/-! DEFINITION. The meanings of the conditional skips (spec/43_skips.md). -/

namespace Sys2Proof.Machine

/-- `3XNN` (R131). -/
def execSeImm (x : Nibble) (nn : Byte) (s : State) : Result := .next (s.skipIf (s.getReg x == nn))

/-- `4XNN` (R132). -/
def execSneImm (x : Nibble) (nn : Byte) (s : State) : Result := .next (s.skipIf (s.getReg x != nn))

/-- `5XY0` (R133). -/
def execSeReg (x y : Nibble) (s : State) : Result := .next (s.skipIf (s.getReg x == s.getReg y))

/-- `9XY0` (R134). -/
def execSneReg (x y : Nibble) (s : State) : Result := .next (s.skipIf (s.getReg x != s.getReg y))

/-- `EX9E` (R135). -/
def execSkp (x : Nibble) (s : State) : Result :=
  s.orFail .undefinedOperand (.skp x) (s.keyPressed (s.getReg x)) (fun down => s.skipIf down)

/-- `EXA1` (R136). -/
def execSknp (x : Nibble) (s : State) : Result :=
  s.orFail .undefinedOperand (.sknp x) (s.keyPressed (s.getReg x)) (fun down => s.skipIf (!down))

end Sys2Proof.Machine
end

