-- ==== Sys2Proof/Machine/TimersKeys.lean ====
section
/-! DEFINITION. The meanings of the timer accesses and the key wait
(spec/46_timers_and_keywait.md). The countdown of the step comes after them (R96, R216). -/

namespace Sys2Proof.Machine

/-- `FX07` (R170): DT before this step's countdown. -/
def execLdVxDt (x : Nibble) (s : State) : Result := .next (s.setReg x s.delayTimer)

/-- `FX0A` (R171): the least pressed key, or wait by staying at this instruction. -/
def execLdVxK (x : Nibble) (s : State) : Result :=
  match s.leastPressedKey with
  | some k => .next (s.setReg x (BitVec.ofNat 8 k))
  | none => .next s.repeatInstr

/-- `FX15` (R172). -/
def execLdDtVx (x : Nibble) (s : State) : Result := .next (s.setDelay (s.getReg x))

/-- `FX18` (R173). -/
def execLdStVx (x : Nibble) (s : State) : Result := .next (s.setSound (s.getReg x))

end Sys2Proof.Machine
end

