-- ==== Sys2Proof/Machine/Engine.lean ====
section
/-! DEFINITION. The phases of one step (spec/40_cycle_engine.md R90, R91). A phase is no state: a
step either goes through all of them or answers a failure and changes nothing (R97). -/

namespace Sys2Proof.Machine

/-- EXECUTE after DECODE of the fetched word (R93, R94): the instruction sees pc = p + 2 (R92). -/
def decodeAndExecute (s : State) (op : Word) : Result :=
  match decodeWord op with
  | some i => exec i s.advance
  | none => .fault (.unknownOpcode op s.pc)

/-- FETCH, DECODE and EXECUTE: the step before its timer countdown (R91). -/
def executePhase (s : State) : Result :=
  match s.fetch with
  | some op => decodeAndExecute s op
  | none => .fault (.fetchOutOfRange s.pc)

/-- TICK (R91, R96): after every successful instruction, after none that failed. -/
def tickPhase : Result → Result
  | .next t => .next t.tick
  | .fault f => .fault f
  | .refused r => .refused r

end Sys2Proof.Machine
end

