-- ==== Sys2Proof/Machine/Step.lean ====
section
/-! DEFINITION. One step (spec/40_cycle_engine.md R90), and where a step fetches. -/

namespace Sys2Proof.Machine

/-- `step`: one fetch-decode-execute, then the timer countdown. A failing step answers the failure;
the state stays as it was (R97; log entry 5). -/
def step (s : State) : Host.Outcome State Fault Refusal := tickPhase (executePhase s)

/-- The state with the instruction that spec/opcode_table.json numbers `w` stored at pc (log
entry 7). -/
def State.withFetchWord (s : State) (nbits w : Nat) : State := s.placeWord (tableWord nbits w)

end Sys2Proof.Machine
end

