-- ==== Sys2Proof/Machine/Interface.lean ====
section
/-! DEFINITION. The host's operations on the block (spec/10_state.md R44 to R47) with the outputs of
a step (R37, R38). The host acts between steps only (R47, 92_eei_decisions.md D23; log entry 10). -/

namespace Sys2Proof.Machine

/-- The status output of a step (R38). -/
inductive Status where
  /-- The step completed. -/
  | ok
  /-- `Fail(kind, opcode, pc)`. -/
  | fail (f : Fault)
  /-- The instruction has no meaning in the model; never output (every instruction has one). -/
  | noMeaning (r : Refusal)
  deriving DecidableEq, Repr

/-- The outputs of a step (R37, R38). -/
structure StepOutput where
  status       : Status
  soundExpired : Bool
  deriving DecidableEq, Repr

/-- `step(rnd)` as the host sees it (R46, R90): the next state and the outputs. After a failure the
state is the one before the step and `sound_expired` is false (R97, R182). -/
def hostStep (s : State) : State × StepOutput :=
  match executePhase s with
  | .next t => (t.tick, ⟨.ok, t.soundExpires⟩)
  | .fault f => (s, ⟨.fail f, false⟩)
  | .refused r => (s, ⟨.noMeaning r, false⟩)

/-- `initialize()` with the parameter `FONT` (R44, R210): every field at its reset value, memory
zeroed and the font installed. The randomness source is not state of the block (R20) and goes on. -/
def powerOn (glyphs : Vector Byte 80) (s : State) : State :=
  { State.reset with
    memory := Memory.writeBytes [] 0x000 glyphs.toList
    draws := s.draws }

/-- Why `load` failed (R181). `UnreadableImage` is the external loader's, never the block's (R5). -/
inductive LoadFailure where
  /-- The image is longer than `MAX_IMAGE_LEN` (R211). -/
  | imageTooLarge
  deriving DecidableEq, Repr

/-- `load(bytes)` with the parameter `MAX_IMAGE_LEN`, at most 0xE00 (R45, R211): the whole image to
0x200, or nothing. No other state changes, not even pc (R212). -/
def load (bound : Fin 0xE01) (image : List Byte) (s : State) : Except LoadFailure State :=
  if image.length ≤ bound.val then
    .ok { s with memory := s.memory.writeBytes 0x200 image }
  else .error .imageTooLarge

/-- The framebuffer read (R47): all 2048 entries, row-major. -/
def readFramebuffer (s : State) : List Bool := (List.range 2048).map s.framebuffer.pixel

/-- The keypad write (R47): the host sets the state of all 16 keys. -/
def writeKeypad (keys : Vector Bool 16) (s : State) : State := { s with keypad := keys }

/-- The keypad write of one entry (R47). -/
def setKey (k : Fin 16) (down : Bool) (s : State) : State := writeKeypad (s.keypad.set k down) s

end Sys2Proof.Machine
end

