-- ==== Sys2Proof/Safety.lean ====
section
/-! DEFINITION. The terms claims are stated in: every observable piece of the state and "nothing
else changes" over them, the duties a step checks (spec/70_reset_and_hazards.md R214), the invariant
of the block (spec/10_state.md R28, R41), and the tables of the spec that say which instruction
reads and writes what (R23, R24, R27, R80). -/

namespace Sys2Proof.Machine

/-! ### Frames -/

/-- One piece of the state, down to a register, a stack slot, a pixel, a key or a memory byte. -/
inductive Piece where
  | reg (r : Nibble)
  | index
  | pc
  | slot (k : Fin 16)
  | sp
  | delayTimer
  | soundTimer
  | pixel (k : Nat)
  | key (k : Fin 16)
  | cell (a : Nat)
  | draws
  deriving DecidableEq, Repr

/-- What a piece of the state holds, as a number. -/
def Piece.value : Piece → State → Nat
  | .reg r, s => (s.getReg r).toNat
  | .index, s => s.index.toNat
  | .pc, s => s.pc.toNat
  | .slot k, s => s.stack[k].toNat
  | .sp, s => s.sp.val
  | .delayTimer, s => s.delayTimer.toNat
  | .soundTimer, s => s.soundTimer.toNat
  | .pixel k, s => (s.framebuffer.pixel k).toNat
  | .key k, s => s.keypad[k].toNat
  | .cell a, s => (s.memory.read a).toNat
  | .draws, s => s.draws

/-- From `s` to `t` at most the named pieces change: every other register, flag, stack slot, pixel,
key, timer and byte of memory holds in `t` what it held in `s`. -/
def ChangesOnly (named : Piece → Prop) (s t : State) : Prop :=
  ∀ p, ¬ named p → p.value t = p.value s

/-- The answer with its next state changed by `g`; a failure as it is. -/
def onNext (g : State → State) : Result → Result
  | .next t => .next (g t)
  | .fault f => .fault f
  | .refused r => .refused r

/-- Two answers that agree up to a relation of their next states: both go on to related states, or
both fail alike. -/
def Alike (rel : State → State → Prop) : Result → Result → Prop
  | .next t, .next u => rel t u
  | .fault f, .fault g => f = g
  | .refused r, .refused q => r = q
  | _, _ => False

/-! ### Failures -/

/-- The opcode a failure records; none when no word was fetched (R38, R181). -/
def Fault.opcode : Fault → Option Word
  | .stackOverflow op _ => some op
  | .stackUnderflow op _ => some op
  | .unknownOpcode op _ => some op
  | .fetchOutOfRange _ => none
  | .dataOutOfRange op _ => some op
  | .undefinedOperand op _ => some op

/-- The address a failure records (R38, R181). -/
def Fault.address : Fault → Word
  | .stackOverflow _ p => p
  | .stackUnderflow _ p => p
  | .unknownOpcode _ p => p
  | .fetchOutOfRange p => p
  | .dataOutOfRange _ p => p
  | .undefinedOperand _ p => p

/-- The illegal encodings, from the dispatch rules (R75, R77, R78, R79, R80). -/
def IllegalWord (op : Word) : Prop :=
  (fieldF op = 0x0#4 ∧ op ∉ [0x00E0#16, 0x00EE#16]) ∨
  (fieldF op = 0x8#4 ∧ fieldN op ∈ [0x8#4, 0x9#4, 0xA#4, 0xB#4, 0xC#4, 0xD#4, 0xF#4]) ∨
  (fieldF op = 0xE#4 ∧ fieldNN op ∉ [0x9E#8, 0xA1#8]) ∨
  (fieldF op = 0xF#4 ∧
    fieldNN op ∉ [0x07#8, 0x0A#8, 0x15#8, 0x18#8, 0x1E#8, 0x29#8, 0x33#8, 0x55#8, 0x65#8])

/-- The program's duty for one instruction in the state it executes in (R214): the condition whose
failure fails the step. -/
def duty (i : Instr) (s : State) : Prop :=
  match i with
  | .ret => 0 < s.sp.val
  | .call _ => s.sp.val < 16
  | .skp x | .sknp x | .ldF x => (s.getReg x).toNat ≤ 15
  | .drw _ _ n => n.toNat = 0 ∨ s.index.toNat + n.toNat - 1 ≤ 0xFFF
  | .ldB _ => s.index.toNat + 2 ≤ 0xFFF
  | .storeRegs x | .loadRegs x => s.index.toNat + x.toNat ≤ 0xFFF
  | .cls | .jp _ | .seImm _ _ | .sneImm _ _ | .seReg _ _ | .ldImm _ _ | .addImm _ _ | .ldReg _ _
  | .orReg _ _ | .andReg _ _ | .xorReg _ _ | .addReg _ _ | .subReg _ _ | .shr _ _ | .subn _ _
  | .shl _ _ | .sneReg _ _ | .ldI _ | .jpV0 _ | .rnd _ _ | .ldVxDt _ | .ldVxK _ | .ldDtVx _
  | .ldStVx _ | .addI _ => True

/-! ### The invariant -/

/-- What every step preserves beyond the types of the fields: memory in canonical form, every stack
slot a return address a call can push, and pc where a skip, jump or return can leave it (R28: at
most 0x10FE). -/
def State.Inv (s : State) : Prop :=
  s.memory.wf = true ∧ s.pc.toNat ≤ 0x10FE ∧ ∀ k : Fin 16, s.stack[k].toNat ≤ 0x1000

/-! ### Tables of the spec -/

/-- The register an instruction may write, as destination, block or flag (R23). -/
def mayWrite (i : Instr) (r : Nibble) : Prop :=
  match i with
  | .ldImm x _ | .addImm x _ | .ldReg x _ | .orReg x _ | .andReg x _ | .xorReg x _ | .rnd x _
  | .ldVxDt x | .ldVxK x => r = x
  | .addReg x _ | .subReg x _ | .shr x _ | .subn x _ | .shl x _ => r = x ∨ r = 0xF#4
  | .drw _ _ _ => r = 0xF#4
  | .loadRegs x => r.toNat ≤ x.toNat
  | .cls | .ret | .jp _ | .call _ | .seImm _ _ | .sneImm _ _ | .seReg _ _ | .sneReg _ _ | .ldI _
  | .jpV0 _ | .skp _ | .sknp _ | .ldDtVx _ | .ldStVx _ | .addI _ | .ldF _ | .ldB _
  | .storeRegs _ => False

/-- The registers an instruction reads (R24). -/
def readsReg (i : Instr) (r : Nibble) : Prop :=
  match i with
  | .seImm x _ | .sneImm x _ | .addImm x _ | .shr x _ | .shl x _ | .skp x | .sknp x | .ldDtVx x
  | .ldStVx x | .addI x | .ldF x | .ldB x => r = x
  | .seReg x y | .sneReg x y | .orReg x y | .andReg x y | .xorReg x y | .addReg x y | .subReg x y
  | .subn x y | .drw x y _ => r = x ∨ r = y
  | .ldReg _ y => r = y
  | .jpV0 _ => r = 0x0#4
  | .storeRegs x => r.toNat ≤ x.toNat
  | .cls | .ret | .jp _ | .call _ | .ldImm _ _ | .ldI _ | .rnd _ _ | .ldVxDt _ | .ldVxK _
  | .loadRegs _ => False

/-- The addresses an instruction reads as data (R52, R59). -/
def readsCell (i : Instr) (s : State) (a : Nat) : Prop :=
  match i with
  | .drw _ _ n => s.index.toNat ≤ a ∧ a < s.index.toNat + n.toNat
  | .loadRegs x => s.index.toNat ≤ a ∧ a ≤ s.index.toNat + x.toNat
  | .cls | .ret | .jp _ | .call _ | .seImm _ _ | .sneImm _ _ | .seReg _ _ | .ldImm _ _ | .addImm _ _
  | .ldReg _ _ | .orReg _ _ | .andReg _ _ | .xorReg _ _ | .addReg _ _ | .subReg _ _ | .shr _ _
  | .subn _ _ | .shl _ _ | .sneReg _ _ | .ldI _ | .jpV0 _ | .rnd _ _ | .skp _ | .sknp _ | .ldVxDt _
  | .ldVxK _ | .ldDtVx _ | .ldStVx _ | .addI _ | .ldF _ | .ldB _ | .storeRegs _ => False

/-- The addresses an instruction stores to (R52, R59). -/
def writesCell (i : Instr) (s : State) (a : Nat) : Prop :=
  match i with
  | .ldB _ => s.index.toNat ≤ a ∧ a ≤ s.index.toNat + 2
  | .storeRegs x => s.index.toNat ≤ a ∧ a ≤ s.index.toNat + x.toNat
  | .cls | .ret | .jp _ | .call _ | .seImm _ _ | .sneImm _ _ | .seReg _ _ | .ldImm _ _ | .addImm _ _
  | .ldReg _ _ | .orReg _ _ | .andReg _ _ | .xorReg _ _ | .addReg _ _ | .subReg _ _ | .shr _ _
  | .subn _ _ | .shl _ _ | .sneReg _ _ | .ldI _ | .jpV0 _ | .rnd _ _ | .drw _ _ _ | .skp _
  | .sknp _ | .ldVxDt _ | .ldVxK _ | .ldDtVx _ | .ldStVx _ | .addI _ | .ldF _
  | .loadRegs _ => False

/-- The table of R27: pc after the step of an instruction fetched at `s.pc`, from the state before
the step. -/
def pcAfter (i : Instr) (s : State) : Word :=
  match i with
  | .cls | .ldImm _ _ | .addImm _ _ | .ldReg _ _ | .orReg _ _ | .andReg _ _ | .xorReg _ _
  | .addReg _ _ | .subReg _ _ | .shr _ _ | .subn _ _ | .shl _ _ | .ldI _ | .rnd _ _ | .drw _ _ _
  | .ldVxDt _ | .ldDtVx _ | .ldStVx _ | .addI _ | .ldF _ | .ldB _ | .storeRegs _
  | .loadRegs _ => s.pc + 2#16
  | .seImm x nn => if s.getReg x = nn then s.pc + 4#16 else s.pc + 2#16
  | .sneImm x nn => if s.getReg x ≠ nn then s.pc + 4#16 else s.pc + 2#16
  | .seReg x y => if s.getReg x = s.getReg y then s.pc + 4#16 else s.pc + 2#16
  | .sneReg x y => if s.getReg x ≠ s.getReg y then s.pc + 4#16 else s.pc + 2#16
  | .skp x => if s.keyPressed (s.getReg x) = some true then s.pc + 4#16 else s.pc + 2#16
  | .sknp x => if s.keyPressed (s.getReg x) = some false then s.pc + 4#16 else s.pc + 2#16
  | .jp nnn => BitVec.ofNat 16 nnn.toNat
  | .call nnn => BitVec.ofNat 16 nnn.toNat
  | .ret => s.stack[s.sp.val - 1]?.getD 0#16
  | .jpV0 nnn => BitVec.ofNat 16 ((s.getReg 0x0#4).toNat + nnn.toNat)
  | .ldVxK _ => if ∃ k : Fin 16, s.keypad[k] = true then s.pc + 2#16 else s.pc

/-- The pixel at column `c` and row `r` (R10, R32). -/
def State.pixelAt (s : State) (c r : Nat) : Bool := s.framebuffer.pixel (c + r * 64)

/-- A sprite of `n` bytes at `a`, drawn at (vx, vy), has a set bit at column `c` and row `r` of the
display (R111): the bit `j` columns right of Vx and `i` rows below Vy, both wrapping. -/
def spriteCovers (m : Memory) (a n : Nat) (vx vy : Byte) (c r : Nat) : Bool :=
  let j := (c + 64 - vx.toNat % 64) % 64
  let i := (r + 32 - vy.toNat % 32) % 32
  decide (i < n) && decide (j < 8) && (m.read (a + i)).getLsbD (7 - j)

end Sys2Proof.Machine
end

