-- ==== Sys2Proof/Certificates/Slice0/Obligations.lean ====
section
/-! DEFINITION. The statements for the provers. A statement about `exec` sees the state the
instruction executes in, whose pc is p + 2 for an instruction fetched at p (spec/40_cycle_engine.md
R92), and speaks of the state before the timer countdown of the step; `StepRunsDecodedInstruction`
and `TimersCountDownAfterEveryStep` carry it to a step. `ChangesOnly` is each statement's frame:
every register, flag, stack slot, timer, pixel, key and byte of memory that it does not name is
unchanged, and so is pc. -/

open Sys2Proof Sys2Proof.Machine

/-! ### Encoding (spec/30_encoding.md) -/

/-- Thirteen words decode as 95_test_vectors.md (decode of single words) and the instruction files'
examples say, in families 0, 1, 2, 5, 6, 8, 9, C, D, E and F, and four words of the sub-dispatched
families 0, 8, E and F are refused. That 0x5121 and 0x9AB7 decode although their low nibble is not 0
is the spec's decision D7 (log entry 11), that 0x0123 is refused its decision D6. -/
def Obligations.SampleWordsDecode : Prop :=
  decodeWord 0x00E0#16 = some .cls ∧ decodeWord 0x00EE#16 = some .ret ∧
  decodeWord 0x1ABC#16 = some (.jp 0xABC#12) ∧ decodeWord 0x2210#16 = some (.call 0x210#12) ∧
  decodeWord 0x5121#16 = some (.seReg 0x1#4 0x2#4) ∧
  decodeWord 0x9AB7#16 = some (.sneReg 0xA#4 0xB#4) ∧
  decodeWord 0x6A7B#16 = some (.ldImm 0xA#4 0x7B#8) ∧
  decodeWord 0x812E#16 = some (.shl 0x1#4 0x2#4) ∧
  decodeWord 0xC30F#16 = some (.rnd 0x3#4 0x0F#8) ∧
  decodeWord 0xD015#16 = some (.drw 0x0#4 0x1#4 0x5#4) ∧
  decodeWord 0xE19E#16 = some (.skp 0x1#4) ∧ decodeWord 0xF10A#16 = some (.ldVxK 0x1#4) ∧
  decodeWord 0xF165#16 = some (.loadRegs 0x1#4) ∧
  decodeWord 0x0123#16 = none ∧ decodeWord 0x8128#16 = none ∧ decodeWord 0xE19F#16 = none ∧
  decodeWord 0xF000#16 = none

/-- The word the encoder writes for an instruction decodes to that instruction, with every operand
at every value its field can hold. -/
def Obligations.DecodeOfEncode : Prop :=
  ∀ i : Instr, decodeWord (encode i) = some i

/-- A word that decodes to an instruction is the word the encoder writes for it, but for the low
nibble that families 5 and 9 ignore (spec decision D7, log entry 11): there the encoder writes 0. -/
def Obligations.EncodeOfDecode : Prop :=
  ∀ (op : Word) (i : Instr), decodeWord op = some i →
    if fieldF op = 0x5#4 ∨ fieldF op = 0x9#4 then encode i = op &&& 0xFFF0#16 else encode i = op

/-- R77, R78, R79: families 8, E and F decode on the trailing nibble or byte, and every other one
fails the step with `UnknownOpcode(op, pc)`. -/
def Obligations.SubDispatchedFamilies : Prop :=
  (∀ x y n : Nibble, decodeWord (0x8#4 ++ x ++ y ++ n) =
    match n.toNat with
    | 0x0 => some (.ldReg x y) | 0x1 => some (.orReg x y) | 0x2 => some (.andReg x y)
    | 0x3 => some (.xorReg x y) | 0x4 => some (.addReg x y) | 0x5 => some (.subReg x y)
    | 0x6 => some (.shr x y) | 0x7 => some (.subn x y) | 0xE => some (.shl x y)
    | _ => none) ∧
  (∀ (x : Nibble) (nn : Byte), decodeWord (0xE#4 ++ x ++ nn) =
    match nn.toNat with
    | 0x9E => some (.skp x) | 0xA1 => some (.sknp x)
    | _ => none) ∧
  (∀ (x : Nibble) (nn : Byte), decodeWord (0xF#4 ++ x ++ nn) =
    match nn.toNat with
    | 0x07 => some (.ldVxDt x) | 0x0A => some (.ldVxK x) | 0x15 => some (.ldDtVx x)
    | 0x18 => some (.ldStVx x) | 0x1E => some (.addI x) | 0x29 => some (.ldF x)
    | 0x33 => some (.ldB x) | 0x55 => some (.storeRegs x) | 0x65 => some (.loadRegs x)
    | _ => none) ∧
  (∀ (s : State) (op : Word), s.fetch = some op → fieldF op ∈ [0x8#4, 0xE#4, 0xF#4] →
    decodeWord op = none → step s = .fault (.unknownOpcode op s.pc))

/-- The words that are no instruction are exactly the illegal encodings (the spec derives the list
in R80 and decides family 0 in D6), and a step that fetches one fails with `UnknownOpcode` naming
the word and the address it was fetched from. -/
def Obligations.IllegalWordsFailTheStep : Prop :=
  (∀ op : Word, decodeWord op = none ↔ IllegalWord op) ∧
  (∀ (s : State) (op : Word), s.fetch = some op → IllegalWord op →
    step s = .fault (.unknownOpcode op s.pc))

/-- The decoder, written from the dispatch rules, accepts exactly the words some row of the opcode
table covers; no word has two rows; and each instruction's word is covered. -/
def Obligations.DecoderAgreesWithOpcodeTable : Prop :=
  (∀ op : Word, (decodeWord op).isSome = legalWord op) ∧
  (∀ op : Word, (opcodeTable.filter (·.covers op)).length ≤ 1) ∧
  (∀ i : Instr, legalWord (encode i) = true)

/-! ### Reset and the host's operations (spec/10_state.md, spec/70_reset_and_hazards.md) -/

/-- The state after `initialize()` (table of 10_state.md, Reset values): the font at 0x000..0x04F,
every other byte and every register 0, pc at 0x200, stack empty, timers 0, framebuffer clear, no
key pressed (keypad and framebuffer by D24). The font is the parameter `FONT`, by its name
`Machine.font` (D16, log entry 3). -/
def Obligations.ResetState : Prop :=
  (∀ a (h : a < 80), State.reset.memory.read a = font[a]) ∧
  (∀ a, 80 ≤ a → a ≤ 0xFFF → State.reset.memory.read a = 0#8) ∧
  (∀ r, State.reset.getReg r = 0#8) ∧ State.reset.index = 0#16 ∧ State.reset.pc = 0x200#16 ∧
  (∀ k : Fin 16, State.reset.stack[k] = 0#16) ∧ State.reset.sp.val = 0 ∧
  State.reset.delayTimer = 0#8 ∧ State.reset.soundTimer = 0#8 ∧
  (∀ k, k < 2048 → State.reset.framebuffer.pixel k = false) ∧
  (∀ k : Fin 16, State.reset.keypad[k] = false)

/-- `initialize()` with any font, from any state: the bytes of that font at 0x000..0x04F, 0 above,
and everything else as after reset; with the default font it is the reset state. That memory is left
in canonical form, and with it the equality of states, rests on the form the model chose for memory
(log entry 8). The count of random bytes drawn is the model's own field and goes on (log entry
2). -/
def Obligations.InitializeInstallsFont : Prop :=
  (∀ (glyphs : Vector Byte 80) (s : State),
    (∀ a (h : a < 80), (powerOn glyphs s).memory.read a = glyphs[a]) ∧
    (∀ a, 80 ≤ a → a ≤ 0xFFF → (powerOn glyphs s).memory.read a = 0#8) ∧
    (powerOn glyphs s).memory.wf = true ∧
    (∀ p : Piece, (∀ a, p ≠ .cell a) → p ≠ .draws →
      p.value (powerOn glyphs s) = p.value State.reset)) ∧
  (∀ s : State, powerOn font s = { State.reset with draws := s.draws })

/-- `load` of an image no longer than the bound, which is at most 0xE00 (D15), copies it to 0x200
upwards and changes nothing else, not even pc (D32), an empty or odd-length image included (D28); a
longer image fails and nothing is written. -/
def Obligations.LoadCopiesImage : Prop :=
  ∀ (bound : Fin 0xE01) (image : List Byte) (s : State),
    (image.length ≤ bound.val → ∃ t, load bound image s = .ok t ∧
      (∀ k (h : k < image.length), t.memory.read (0x200 + k) = image[k]) ∧
      ChangesOnly (fun p => ∃ k < image.length, p = .cell (0x200 + k)) s t) ∧
    (bound.val < image.length → load bound image s = .error .imageTooLarge)

/-! ### One step (spec/40_cycle_engine.md, spec/60_exceptions.md) -/

/-- A step fetches the two bytes at pc and pc + 1, big-endian, advances pc by 2, decodes the word,
executes the instruction and counts the timers down; a failure of the instruction is the step's.
(The atomicity of a failing step is the spec's decision D2.) -/
def Obligations.StepRunsDecodedInstruction : Prop :=
  ∀ (s : State) (i : Instr), s.pc.toNat + 1 ≤ 0xFFF →
    decodeWord (s.memory.read s.pc.toNat ++ s.memory.read (s.pc.toNat + 1)) = some i →
    (∀ t, exec i { s with pc := s.pc + 2#16 } = .next t → step s = .next t.tick) ∧
    (∀ f, exec i { s with pc := s.pc + 2#16 } = .fault f → step s = .fault f)

/-- A fetch at pc ≥ 0xFFF fails with `AddressOutOfRange(fetch, pc)` (spec decision D4), and no other
fetch does. -/
def Obligations.FetchPastMemoryFails : Prop :=
  ∀ s : State,
    (0xFFF ≤ s.pc.toNat → step s = .fault (.fetchOutOfRange s.pc)) ∧
    (s.pc.toNat < 0xFFF → ∀ p, step s ≠ .fault (.fetchOutOfRange p))

/-- R195: after the instruction, DT and ST each count down by one if nonzero and never below zero,
nothing else changes, and `sound_expired` is whether ST was 1 before the countdown. -/
def Obligations.TimersCountDownAfterEveryStep : Prop :=
  ∀ s u : State, executePhase s = .next u →
    ∃ t, step s = .next t ∧ hostStep s = (t, ⟨.ok, decide (u.soundTimer = 1#8)⟩) ∧
      t.delayTimer.toNat = (if 0 < u.delayTimer.toNat then u.delayTimer.toNat - 1 else 0) ∧
      t.soundTimer.toNat = (if 0 < u.soundTimer.toNat then u.soundTimer.toNat - 1 else 0) ∧
      ChangesOnly (fun p => p = .delayTimer ∨ p = .soundTimer) u t

/-- A step completes exactly when the program keeps its duties (the list of
70_reset_and_hazards.md, Boot): the fetch inside memory (spec decision D4), a legal word, the stack
not full or empty, addresses at most 0xFFF (D3), Vx at most 15 (D13, D14; log entry 13). No step is
refused. -/
def Obligations.StepCompletesIffDutiesHold : Prop :=
  ∀ s : State,
    ((∃ t, step s = .next t) ↔
      ∃ op i, s.fetch = some op ∧ decodeWord op = some i ∧ duty i s.advance) ∧
    ∀ r, step s ≠ .refused r

/-- Whatever fails a step, the failure records the address the instruction was fetched from and the
fetched word, none when there was no fetch (failure model of 60_exceptions.md; pc by D2). -/
def Obligations.FailureRecordsFetchedWord : Prop :=
  ∀ (s : State) (f : Fault), step s = .fault f → f.address = s.pc ∧ f.opcode = s.fetch

/-- A failing step writes no state and outputs `sound_expired` false (spec decision D2). -/
def Obligations.FailingStepChangesNothing : Prop :=
  ∀ (s : State) (f : Fault), step s = .fault f → hostStep s = (s, ⟨.fail f, false⟩)

/-- A failing step fails again in the same way whatever the host does to the keypad and whatever
random bytes come (spec decision D25). -/
def Obligations.FailureIsStable : Prop :=
  ∀ (s : State) (f : Fault) (keys : Vector Bool 16) (d : Nat), step s = .fault f →
    step { s with keypad := keys, draws := d } = .fault f

/-- The table of pc after each instruction (10_state.md, Program counter; the spec derives it):
p + 2, p + 4 for a taken skip, the target of a transfer, p while waiting for a key. -/
def Obligations.PcAfterStep : Prop :=
  ∀ (s t : State) (op : Word) (i : Instr), s.fetch = some op → decodeWord op = some i →
    step s = .next t → t.pc = pcAfter i s

/-- The reset state meets the invariant that `StepKeepsInvariant` keeps: memory in canonical form
(the model's choice, log entry 8), every stack slot at most 0x1000, and pc at most 0x10FE (the
spec's bound in 10_state.md, Program counter, decision D29). -/
def Obligations.ResetMeetsInvariant : Prop := State.reset.Inv

/-- Every step keeps the invariant: memory in canonical form (the model's, log entry 8), every
stack slot at most 0x1000, and pc at most 0x10FE (the spec's bound in 10_state.md, Program counter,
decision D29). -/
def Obligations.StepKeepsInvariant : Prop :=
  ∀ s t : State, s.Inv → step s = .next t → t.Inv

/-- Canonical memories that read alike at every address are the same list (log entry 8). -/
def Obligations.CanonicalMemoryIsUnique : Prop :=
  ∀ m n : Memory, m.wf = true → n.wf = true → (∀ a, m.read a = n.read a) → m = n

/-! ### Who reads and writes what (spec/10_state.md, spec/20_memory.md) -/

/-- An instruction changes no general register but those listed for it (10_state.md, General
registers). -/
def Obligations.RegisterWriters : Prop :=
  ∀ (i : Instr) (s t : State) (r : Nibble), exec i s = .next t → ¬ mayWrite i r →
    t.getReg r = s.getReg r

/-- An instruction reads no general register but those listed for it (10_state.md, General
registers): with another value in a register that it does not read, it fails alike or gives a state
that is the same but for that register, which then either holds the same in both or was left alone
in both. -/
def Obligations.RegisterReaders : Prop :=
  ∀ (i : Instr) (s : State) (r : Nibble) (v : Byte), ¬ readsReg i r →
    Alike (fun t u => ChangesOnly (fun p => p = .reg r) t u ∧
        (u.getReg r = t.getReg r ∨ t.getReg r = s.getReg r ∧ u.getReg r = v))
      (exec i s) (exec i (s.setReg r v))

/-- Which bytes an instruction stores to, which it reads, and that no other instruction
touches memory; the fetch reads the bytes at pc and pc + 1 (20_memory.md, Access widths). -/
def Obligations.MemoryTraffic : Prop :=
  (∀ (i : Instr) (s t : State) (a : Nat), exec i s = .next t → ¬ writesCell i s a →
    t.memory.read a = s.memory.read a) ∧
  (∀ (i : Instr) (s : State) (m : Memory),
    (∀ a, readsCell i s a → m.read a = s.memory.read a) →
    Alike (fun t u => ∀ p : Piece, (∀ a, p ≠ .cell a) → p.value u = p.value t)
      (exec i s) (exec i { s with memory := m })) ∧
  (∀ (s : State) (m : Memory), m.read s.pc.toNat = s.memory.read s.pc.toNat →
    m.read (s.pc.toNat + 1) = s.memory.read (s.pc.toNat + 1) →
    ({ s with memory := m } : State).fetch = s.fetch)

/-- No instruction writes the keypad, and none but `EX9E`, `EXA1` and `FX0A` reads it. -/
def Obligations.KeypadIsReadOnly : Prop :=
  (∀ (i : Instr) (s t : State), exec i s = .next t → t.keypad = s.keypad) ∧
  (∀ (i : Instr) (s : State) (keys : Vector Bool 16),
    (∀ x, i ≠ .skp x) → (∀ x, i ≠ .sknp x) → (∀ x, i ≠ .ldVxK x) →
    exec i (writeKeypad keys s) = onNext (writeKeypad keys) (exec i s))

/-- The framebuffer is changed by `DXYN` and `00E0` only and read by `DXYN` only; the host
reads its 2048 entries in the order column + row * 64. -/
def Obligations.FramebufferAccess : Prop :=
  (∀ (i : Instr) (s : State) (fb : Framebuffer), i ≠ .cls → (∀ x y n, i ≠ .drw x y n) →
    exec i (s.setFramebuffer fb) = onNext (fun t => t.setFramebuffer fb) (exec i s) ∧
    ∀ t, exec i s = .next t → t.framebuffer = s.framebuffer) ∧
  (∀ (s : State) (fb : Framebuffer), exec .cls (s.setFramebuffer fb) = exec .cls s) ∧
  (∀ s : State, (readFramebuffer s).length = 2048 ∧
    ∀ c r, c < 64 → r < 32 → (readFramebuffer s)[c + r * 64]? = some (s.pixelAt c r))

/-- DT is written by `FX15` and read by `FX07` only, ST is written by `FX18` and read by no
instruction, and a step that completes counts each down toward zero, never below. -/
def Obligations.TimerAccess : Prop :=
  (∀ (i : Instr) (s t : State), exec i s = .next t →
    ((∀ x, i ≠ .ldDtVx x) → t.delayTimer = s.delayTimer) ∧
    ((∀ x, i ≠ .ldStVx x) → t.soundTimer = s.soundTimer)) ∧
  (∀ (i : Instr) (s : State) (v : Byte), (∀ x, i ≠ .ldVxDt x) → (∀ x, i ≠ .ldDtVx x) →
    exec i (s.setDelay v) = onNext (fun t => t.setDelay v) (exec i s)) ∧
  (∀ (x : Nibble) (s : State) (v : Byte), exec (.ldDtVx x) (s.setDelay v) = exec (.ldDtVx x) s) ∧
  (∀ (i : Instr) (s : State) (v : Byte), (∀ x, i ≠ .ldStVx x) →
    exec i (s.setSound v) = onNext (fun t => t.setSound v) (exec i s)) ∧
  (∀ (x : Nibble) (s : State) (v : Byte), exec (.ldStVx x) (s.setSound v) = exec (.ldStVx x) s) ∧
  (∀ s u : State, executePhase s = .next u → ∃ t, step s = .next t ∧
    t.delayTimer.toNat = u.delayTimer.toNat - 1 ∧ t.soundTimer.toNat = u.soundTimer.toNat - 1)

/-- R29: a push writes slot sp and raises sp, legal only below 16; a pop lowers sp and takes pc from
the slot, legal only above 0; no other instruction reads or writes sp or a slot. -/
def Obligations.StackDiscipline : Prop :=
  (∀ (nnn : Addr) (s : State),
    if h : s.sp.val < 16 then ∃ t, exec (.call nnn) s = .next t ∧ t.sp.val = s.sp.val + 1 ∧
      t.stack = s.stack.set s.sp.val s.pc h
    else exec (.call nnn) s = .fault (.stackOverflow (0x2#4 ++ nnn) (s.pc - 2#16))) ∧
  (∀ s : State,
    if h : 0 < s.sp.val then ∃ t, exec .ret s = .next t ∧ t.sp.val = s.sp.val - 1 ∧
      t.stack = s.stack ∧ t.pc = s.stack[s.sp.val - 1]'(by have := s.sp.isLt; omega)
    else exec .ret s = .fault (.stackUnderflow 0x00EE#16 (s.pc - 2#16))) ∧
  (∀ (i : Instr) (s : State) (stack : Vector Word 16) (sp : Fin 17), i ≠ .ret →
    (∀ nnn, i ≠ .call nnn) →
    exec i { s with stack := stack, sp := sp } =
      onNext (fun t => { t with stack := stack, sp := sp }) (exec i s) ∧
    ∀ t, exec i s = .next t → t.stack = s.stack ∧ t.sp = s.sp)

/-- Only `CXNN` takes a byte from the randomness source; every other instruction ignores it (spec
decision D18). The source is the model's free value `Config.rnd` (log entry 1). -/
def Obligations.RandomnessOnlyInRnd : Prop :=
  ∀ (i : Instr) (s : State) (d : Nat), (∀ x nn, i ≠ .rnd x nn) →
    exec i { s with draws := d } = onNext (fun t => { t with draws := d }) (exec i s) ∧
    ∀ t, exec i s = .next t → t.draws = s.draws

/-! ### Display (spec/41_display.md) -/

/-- R110: `00E0` clears every pixel and changes nothing else; its word is 0x00E0 exactly. -/
def Obligations.ClearDisplay : Prop :=
  (∀ op : Word, decodeWord op = some .cls ↔ op = 0x00E0#16) ∧
  ∀ s : State, ∃ t, exec .cls s = .next t ∧
    (∀ k, k < 2048 → t.framebuffer.pixel k = false) ∧
    ChangesOnly (fun p => ∃ k, p = .pixel k) s t

/-- `DXYN`: every pixel the sprite covers is flipped, wrapping at both edges, VF is 1 exactly when
one of them was set before, and nothing else changes; the coordinates are the old Vx and Vy. With an
address of the sprite past 0xFFF it fails and draws nothing (spec decision D3). -/
def Obligations.DrawSprite : Prop :=
  ∀ (x y n : Nibble) (s : State),
    decodeWord (0xD#4 ++ x ++ y ++ n) = some (.drw x y n) ∧
    (n.toNat = 0 ∨ s.index.toNat + n.toNat - 1 ≤ 0xFFF →
      ∃ t, exec (.drw x y n) s = .next t ∧
        (∀ c r, c < 64 → r < 32 → t.pixelAt c r = (s.pixelAt c r ^^
          spriteCovers s.memory s.index.toNat n.toNat (s.getReg x) (s.getReg y) c r)) ∧
        (t.getReg 0xF#4 = 1#8 ∨ t.getReg 0xF#4 = 0#8) ∧
        (t.getReg 0xF#4 = 1#8 ↔ ∃ c < 64, ∃ r < 32, s.pixelAt c r = true ∧
          spriteCovers s.memory s.index.toNat n.toNat (s.getReg x) (s.getReg y) c r = true) ∧
        ChangesOnly (fun p => p = .reg 0xF#4 ∨ ∃ k < 2048, p = .pixel k) s t) ∧
    (n.toNat ≠ 0 → 0xFFF < s.index.toNat + n.toNat - 1 →
      exec (.drw x y n) s =
        .fault (.dataOutOfRange (0xD#4 ++ x ++ y ++ n) (s.pc - 2#16)))

/-- Drawing the same sprite at the same place twice gives back every pixel, and the second draw
collides exactly when the first one set a pixel, that is when the sprite covers a pixel that was
clear. (The spec derives this from `DXYN`; log entry 14 says why VF is stated so.) -/
def Obligations.DrawTwiceRestores : Prop :=
  ∀ (x y n : Nibble) (s : State), x ≠ 0xF#4 → y ≠ 0xF#4 →
    n.toNat = 0 ∨ s.index.toNat + n.toNat - 1 ≤ 0xFFF →
    ∃ t u, exec (.drw x y n) s = .next t ∧ exec (.drw x y n) t = .next u ∧
      (∀ k, u.framebuffer.pixel k = s.framebuffer.pixel k) ∧
      (u.getReg 0xF#4 = 1#8 ↔ ∃ c < 64, ∃ r < 32, s.pixelAt c r = false ∧
        spriteCovers s.memory s.index.toNat n.toNat (s.getReg x) (s.getReg y) c r = true)

/-! ### Control transfer (spec/42_control_flow.md) -/

/-- R120: `00EE` pops into pc and leaves the slot; with an empty stack it fails. -/
def Obligations.ReturnFromSubroutine : Prop :=
  (∀ op : Word, decodeWord op = some .ret ↔ op = 0x00EE#16) ∧
  ∀ s : State,
    (∀ h : 0 < s.sp.val, ∃ t, exec .ret s = .next t ∧ t.sp.val = s.sp.val - 1 ∧
      t.pc = s.stack[s.sp.val - 1]'(by have := s.sp.isLt; omega) ∧
      ChangesOnly (fun p => p = .pc ∨ p = .sp) s t) ∧
    (s.sp.val = 0 → exec .ret s = .fault (.stackUnderflow 0x00EE#16 (s.pc - 2#16)))

/-- R121: `1NNN` sets pc to NNN, zero-extended, and changes nothing else. -/
def Obligations.JumpToAddress : Prop :=
  ∀ (nnn : Addr) (s : State), decodeWord (0x1#4 ++ nnn) = some (.jp nnn) ∧
    ∃ t, exec (.jp nnn) s = .next t ∧ t.pc.toNat = nnn.toNat ∧ ChangesOnly (· = .pc) s t

/-- R122: `2NNN` pushes pc, which is p + 2, and jumps to NNN; with 16 entries it fails. -/
def Obligations.CallSubroutine : Prop :=
  ∀ (nnn : Addr) (s : State), decodeWord (0x2#4 ++ nnn) = some (.call nnn) ∧
    (∀ h : s.sp.val < 16, ∃ t, exec (.call nnn) s = .next t ∧ t.pc.toNat = nnn.toNat ∧
      t.sp.val = s.sp.val + 1 ∧ t.stack[s.sp.val] = s.pc ∧
      ChangesOnly (fun p => p = .pc ∨ p = .sp ∨ p = .slot ⟨s.sp.val, h⟩) s t) ∧
    (s.sp.val = 16 →
      exec (.call nnn) s = .fault (.stackOverflow (0x2#4 ++ nnn) (s.pc - 2#16)))

/-- R123: `BNNN` sets pc to V0 + NNN, not wrapped, and changes nothing else. -/
def Obligations.JumpWithOffset : Prop :=
  ∀ (nnn : Addr) (s : State), decodeWord (0xB#4 ++ nnn) = some (.jpV0 nnn) ∧
    ∃ t, exec (.jpV0 nnn) s = .next t ∧ t.pc.toNat = (s.getReg 0x0#4).toNat + nnn.toNat ∧
      ChangesOnly (· = .pc) s t

/-- A return undoes a call: pc is the address after the call, the stack as deep as before, and but
for the slot the call wrote the state is the one before the call. -/
def Obligations.CallThenReturn : Prop :=
  ∀ (nnn : Addr) (s : State) (h : s.sp.val < 16),
    ∃ t u, exec (.call nnn) s = .next t ∧ exec .ret t = .next u ∧ u.pc = s.pc ∧ u.sp = s.sp ∧
      ChangesOnly (· = .slot ⟨s.sp.val, h⟩) s u

/-! ### Skips (spec/43_skips.md) -/

/-- R131: `3XNN` skips exactly when Vx is NN. -/
def Obligations.SkipIfEqualImmediate : Prop :=
  ∀ (x : Nibble) (nn : Byte) (s : State),
    decodeWord (0x3#4 ++ x ++ nn) = some (.seImm x nn) ∧
    ∃ t, exec (.seImm x nn) s = .next t ∧
      t.pc = (if s.getReg x = nn then s.pc + 2#16 else s.pc) ∧ ChangesOnly (· = .pc) s t

/-- R132: `4XNN` skips exactly when Vx is not NN. -/
def Obligations.SkipIfNotEqualImmediate : Prop :=
  ∀ (x : Nibble) (nn : Byte) (s : State),
    decodeWord (0x4#4 ++ x ++ nn) = some (.sneImm x nn) ∧
    ∃ t, exec (.sneImm x nn) s = .next t ∧
      t.pc = (if s.getReg x = nn then s.pc else s.pc + 2#16) ∧ ChangesOnly (· = .pc) s t

/-- `5XY0` skips exactly when Vx is Vy and `9XY0` exactly when it is not, whatever the low nibble of
the word (spec decision D7, log entry 11). -/
def Obligations.SkipOnRegisters : Prop :=
  ∀ (x y n : Nibble) (s : State),
    decodeWord (0x5#4 ++ x ++ y ++ n) = some (.seReg x y) ∧
    decodeWord (0x9#4 ++ x ++ y ++ n) = some (.sneReg x y) ∧
    (∃ t, exec (.seReg x y) s = .next t ∧
      t.pc = (if s.getReg x = s.getReg y then s.pc + 2#16 else s.pc) ∧
      ChangesOnly (· = .pc) s t) ∧
    (∃ t, exec (.sneReg x y) s = .next t ∧
      t.pc = (if s.getReg x = s.getReg y then s.pc else s.pc + 2#16) ∧
      ChangesOnly (· = .pc) s t)

/-- `EX9E` skips exactly when key Vx is pressed and `EXA1` exactly when it is not; with Vx > 15 both
fail (spec decision D13, log entry 13). -/
def Obligations.SkipOnKey : Prop :=
  ∀ (x : Nibble) (s : State),
    decodeWord (0xE#4 ++ x ++ 0x9E#8) = some (.skp x) ∧
    decodeWord (0xE#4 ++ x ++ 0xA1#8) = some (.sknp x) ∧
    (∀ h : (s.getReg x).toNat ≤ 15,
      (∃ t, exec (.skp x) s = .next t ∧
        t.pc = (if s.keypad[(s.getReg x).toNat] = true then s.pc + 2#16 else s.pc) ∧
        ChangesOnly (· = .pc) s t) ∧
      (∃ t, exec (.sknp x) s = .next t ∧
        t.pc = (if s.keypad[(s.getReg x).toNat] = true then s.pc else s.pc + 2#16) ∧
        ChangesOnly (· = .pc) s t)) ∧
    (15 < (s.getReg x).toNat →
      exec (.skp x) s = .fault (.undefinedOperand (0xE#4 ++ x ++ 0x9E#8) (s.pc - 2#16)) ∧
      exec (.sknp x) s = .fault (.undefinedOperand (0xE#4 ++ x ++ 0xA1#8) (s.pc - 2#16)))

/-! ### Register loads and the ALU (spec/44_alu.md) -/

/-- R140: `6XNN` writes NN to Vx and changes nothing else. -/
def Obligations.LoadImmediate : Prop :=
  ∀ (x : Nibble) (nn : Byte) (s : State),
    decodeWord (0x6#4 ++ x ++ nn) = some (.ldImm x nn) ∧
    ∃ t, exec (.ldImm x nn) s = .next t ∧ t.getReg x = nn ∧ ChangesOnly (· = .reg x) s t

/-- R141: `7XNN` adds NN to Vx modulo 256 and sets no flag. -/
def Obligations.AddImmediateWithoutFlag : Prop :=
  ∀ (x : Nibble) (nn : Byte) (s : State),
    decodeWord (0x7#4 ++ x ++ nn) = some (.addImm x nn) ∧
    ∃ t, exec (.addImm x nn) s = .next t ∧
      (t.getReg x).toNat = ((s.getReg x).toNat + nn.toNat) % 256 ∧ ChangesOnly (· = .reg x) s t

/-- R144: `8XY0` copies Vy to Vx and changes nothing else. -/
def Obligations.CopyRegister : Prop :=
  ∀ (x y : Nibble) (s : State),
    decodeWord (0x8#4 ++ x ++ y ++ 0x0#4) = some (.ldReg x y) ∧
    ∃ t, exec (.ldReg x y) s = .next t ∧ t.getReg x = s.getReg y ∧ ChangesOnly (· = .reg x) s t

/-- `8XY1`, `8XY2` and `8XY3` are OR, AND and XOR of each bit, and do not reset VF (spec decision
D10, log entry 12). -/
def Obligations.LogicOfRegisters : Prop :=
  ∀ (x y : Nibble) (s : State),
    decodeWord (0x8#4 ++ x ++ y ++ 0x1#4) = some (.orReg x y) ∧
    decodeWord (0x8#4 ++ x ++ y ++ 0x2#4) = some (.andReg x y) ∧
    decodeWord (0x8#4 ++ x ++ y ++ 0x3#4) = some (.xorReg x y) ∧
    (∃ t, exec (.orReg x y) s = .next t ∧ (∀ j, (t.getReg x).getLsbD j =
      ((s.getReg x).getLsbD j || (s.getReg y).getLsbD j)) ∧ ChangesOnly (· = .reg x) s t) ∧
    (∃ t, exec (.andReg x y) s = .next t ∧ (∀ j, (t.getReg x).getLsbD j =
      ((s.getReg x).getLsbD j && (s.getReg y).getLsbD j)) ∧ ChangesOnly (· = .reg x) s t) ∧
    (∃ t, exec (.xorReg x y) s = .next t ∧ (∀ j, (t.getReg x).getLsbD j =
      ((s.getReg x).getLsbD j ^^ (s.getReg y).getLsbD j)) ∧ ChangesOnly (· = .reg x) s t)

/-- `8XY4` adds modulo 256, VF is the carry and is written last, so that it stays when X = 15; both
operands are the old values (the order by spec decision D9, log entry 12). -/
def Obligations.AddWithCarry : Prop :=
  ∀ (x y : Nibble) (s : State),
    decodeWord (0x8#4 ++ x ++ y ++ 0x4#4) = some (.addReg x y) ∧
    ∃ t, exec (.addReg x y) s = .next t ∧
      (t.getReg 0xF#4).toNat = (if (s.getReg x).toNat + (s.getReg y).toNat > 255 then 1 else 0) ∧
      (x ≠ 0xF#4 → (t.getReg x).toNat = ((s.getReg x).toNat + (s.getReg y).toNat) % 256) ∧
      ChangesOnly (fun p => p = .reg x ∨ p = .reg 0xF#4) s t

/-- `8XY5` subtracts Vy from Vx modulo 256, VF is 1 when there is no borrow, written last (spec
decision D9, log entry 12). -/
def Obligations.SubtractWithNoBorrow : Prop :=
  ∀ (x y : Nibble) (s : State),
    decodeWord (0x8#4 ++ x ++ y ++ 0x5#4) = some (.subReg x y) ∧
    ∃ t, exec (.subReg x y) s = .next t ∧
      (t.getReg 0xF#4).toNat = (if (s.getReg x).toNat ≥ (s.getReg y).toNat then 1 else 0) ∧
      (x ≠ 0xF#4 → (t.getReg x).toNat = (256 + (s.getReg x).toNat - (s.getReg y).toNat) % 256) ∧
      ChangesOnly (fun p => p = .reg x ∨ p = .reg 0xF#4) s t

/-- `8XY7` subtracts Vx from Vy modulo 256, VF is 1 when there is no borrow, written last (spec
decision D9, log entry 12). -/
def Obligations.ReverseSubtract : Prop :=
  ∀ (x y : Nibble) (s : State),
    decodeWord (0x8#4 ++ x ++ y ++ 0x7#4) = some (.subn x y) ∧
    ∃ t, exec (.subn x y) s = .next t ∧
      (t.getReg 0xF#4).toNat = (if (s.getReg y).toNat ≥ (s.getReg x).toNat then 1 else 0) ∧
      (x ≠ 0xF#4 → (t.getReg x).toNat = (256 + (s.getReg y).toNat - (s.getReg x).toNat) % 256) ∧
      ChangesOnly (fun p => p = .reg x ∨ p = .reg 0xF#4) s t

/-- `8XY6` and `8XYE` shift Vx by one, right or left, without reading Vy; VF is the bit shifted out
(spec decision D8), written last (D9; log entry 12). -/
def Obligations.ShiftByOne : Prop :=
  ∀ (x y : Nibble) (s : State),
    decodeWord (0x8#4 ++ x ++ y ++ 0x6#4) = some (.shr x y) ∧
    decodeWord (0x8#4 ++ x ++ y ++ 0xE#4) = some (.shl x y) ∧
    (∃ t, exec (.shr x y) s = .next t ∧
      (t.getReg 0xF#4).toNat = (s.getReg x).toNat % 2 ∧
      (x ≠ 0xF#4 → (t.getReg x).toNat = (s.getReg x).toNat / 2) ∧
      ChangesOnly (fun p => p = .reg x ∨ p = .reg 0xF#4) s t) ∧
    (∃ t, exec (.shl x y) s = .next t ∧
      (t.getReg 0xF#4).toNat = (s.getReg x).toNat / 128 ∧
      (x ≠ 0xF#4 → (t.getReg x).toNat = (s.getReg x).toNat * 2 % 256) ∧
      ChangesOnly (fun p => p = .reg x ∨ p = .reg 0xF#4) s t)

/-- `CXNN` writes the step's random byte ANDed with NN to Vx and consumes one byte of the source
(spec decision D18). The byte is the model's free value, so this holds for every byte (log entry
1). -/
def Obligations.RandomByteMasked : Prop :=
  ∀ (x : Nibble) (nn : Byte) (s : State),
    decodeWord (0xC#4 ++ x ++ nn) = some (.rnd x nn) ∧
    ∃ t, exec (.rnd x nn) s = .next t ∧
      (∀ j, (t.getReg x).getLsbD j = ((Config.rnd s.draws).getLsbD j && nn.getLsbD j)) ∧
      t.draws = s.draws + 1 ∧ ChangesOnly (fun p => p = .reg x ∨ p = .draws) s t

/-! ### Index register and memory blocks (spec/45_index_and_memory.md) -/

/-- R160: `ANNN` sets I to NNN, zero-extended, and changes nothing else. -/
def Obligations.LoadIndex : Prop :=
  ∀ (nnn : Addr) (s : State), decodeWord (0xA#4 ++ nnn) = some (.ldI nnn) ∧
    ∃ t, exec (.ldI nnn) s = .next t ∧ t.index.toNat = nnn.toNat ∧ ChangesOnly (· = .index) s t

/-- R161: `FX1E` adds Vx to I modulo 65536 and sets no flag. -/
def Obligations.AddToIndex : Prop :=
  ∀ (x : Nibble) (s : State), decodeWord (0xF#4 ++ x ++ 0x1E#8) = some (.addI x) ∧
    ∃ t, exec (.addI x) s = .next t ∧
      t.index.toNat = (s.index.toNat + (s.getReg x).toNat) % 65536 ∧ ChangesOnly (· = .index) s t

/-- `FX29` sets I to Vx * 5 for a digit 0 to 15; with Vx > 15 it fails (spec decision D14, log entry
13). -/
def Obligations.PointAtGlyph : Prop :=
  ∀ (x : Nibble) (s : State), decodeWord (0xF#4 ++ x ++ 0x29#8) = some (.ldF x) ∧
    ((s.getReg x).toNat ≤ 15 → ∃ t, exec (.ldF x) s = .next t ∧
      t.index.toNat = (s.getReg x).toNat * 5 ∧ ChangesOnly (· = .index) s t) ∧
    (15 < (s.getReg x).toNat → exec (.ldF x) s =
      .fault (.undefinedOperand (0xF#4 ++ x ++ 0x29#8) (s.pc - 2#16)))

/-- `FX33` stores hundreds, tens and ones of Vx at I, I + 1 and I + 2, from which Vx is
reconstructed, and changes nothing else; past 0xFFF it fails and stores nothing (spec decision D3,
log entry 13). -/
def Obligations.StoreDecimalDigits : Prop :=
  ∀ (x : Nibble) (s : State), decodeWord (0xF#4 ++ x ++ 0x33#8) = some (.ldB x) ∧
    (s.index.toNat + 2 ≤ 0xFFF → ∃ t, exec (.ldB x) s = .next t ∧
      (t.memory.read s.index.toNat).toNat ≤ 2 ∧
      (t.memory.read (s.index.toNat + 1)).toNat ≤ 9 ∧
      (t.memory.read (s.index.toNat + 2)).toNat ≤ 9 ∧
      100 * (t.memory.read s.index.toNat).toNat + 10 * (t.memory.read (s.index.toNat + 1)).toNat +
        (t.memory.read (s.index.toNat + 2)).toNat = (s.getReg x).toNat ∧
      ChangesOnly (fun p => ∃ k ≤ 2, p = .cell (s.index.toNat + k)) s t) ∧
    (0xFFF < s.index.toNat + 2 → exec (.ldB x) s =
      .fault (.dataOutOfRange (0xF#4 ++ x ++ 0x33#8) (s.pc - 2#16)))

/-- `FX55` stores V0..Vx at I..I + X and changes nothing else, I included; past 0xFFF it fails and
stores nothing (spec decision D3, log entry 13). -/
def Obligations.StoreRegisterBlock : Prop :=
  ∀ (x : Nibble) (s : State), decodeWord (0xF#4 ++ x ++ 0x55#8) = some (.storeRegs x) ∧
    (s.index.toNat + x.toNat ≤ 0xFFF → ∃ t, exec (.storeRegs x) s = .next t ∧
      (∀ r : Nibble, r.toNat ≤ x.toNat →
        t.memory.read (s.index.toNat + r.toNat) = s.getReg r) ∧
      ChangesOnly (fun p => ∃ k ≤ x.toNat, p = .cell (s.index.toNat + k)) s t) ∧
    (0xFFF < s.index.toNat + x.toNat → exec (.storeRegs x) s =
      .fault (.dataOutOfRange (0xF#4 ++ x ++ 0x55#8) (s.pc - 2#16)))

/-- `FX65` loads V0..Vx from I..I + X and changes nothing else, I included; past 0xFFF it fails and
loads nothing (spec decision D3, log entry 13). -/
def Obligations.LoadRegisterBlock : Prop :=
  ∀ (x : Nibble) (s : State), decodeWord (0xF#4 ++ x ++ 0x65#8) = some (.loadRegs x) ∧
    (s.index.toNat + x.toNat ≤ 0xFFF → ∃ t, exec (.loadRegs x) s = .next t ∧
      (∀ r : Nibble, r.toNat ≤ x.toNat →
        t.getReg r = s.memory.read (s.index.toNat + r.toNat)) ∧
      ChangesOnly (fun p => ∃ r : Nibble, r.toNat ≤ x.toNat ∧ p = .reg r) s t) ∧
    (0xFFF < s.index.toNat + x.toNat → exec (.loadRegs x) s =
      .fault (.dataOutOfRange (0xF#4 ++ x ++ 0x65#8) (s.pc - 2#16)))

/-- `FX55` and then `FX65` with the same X: the load gives back every register, whatever the
registers V0..Vx held in between, and leaves I alone. -/
def Obligations.StoreThenLoadRestores : Prop :=
  ∀ (x : Nibble) (s : State), s.index.toNat + x.toNat ≤ 0xFFF →
    ∃ t, exec (.storeRegs x) s = .next t ∧
      ∀ scratch : Vector Byte 16,
        (∀ r : Nibble, x.toNat < r.toNat → scratch[r.toNat]'r.isLt = s.getReg r) →
        ∃ u, exec (.loadRegs x) { t with registers := scratch } = .next u ∧
          (∀ r, u.getReg r = s.getReg r) ∧ u.index = s.index

/-! ### Timers and the key wait (spec/46_timers_and_keywait.md) -/

/-- R170: `FX07` writes DT to Vx, its value before this step's countdown. -/
def Obligations.ReadDelayTimer : Prop :=
  ∀ (x : Nibble) (s : State), decodeWord (0xF#4 ++ x ++ 0x07#8) = some (.ldVxDt x) ∧
    ∃ t, exec (.ldVxDt x) s = .next t ∧ t.getReg x = s.delayTimer ∧
      t.tick.delayTimer.toNat = s.delayTimer.toNat - 1 ∧ ChangesOnly (· = .reg x) s t

/-- `FX0A` writes the least pressed key to Vx (spec decision D11) as soon as one is down (D12); with
no key pressed it sets pc back by 2 and changes nothing else. -/
def Obligations.WaitForKey : Prop :=
  ∀ (x : Nibble) (s : State), decodeWord (0xF#4 ++ x ++ 0x0A#8) = some (.ldVxK x) ∧
    (∀ k : Fin 16, s.keypad[k] = true → (∀ j : Fin 16, j < k → s.keypad[j] = false) →
      ∃ t, exec (.ldVxK x) s = .next t ∧ (t.getReg x).toNat = k.val ∧
        ChangesOnly (· = .reg x) s t) ∧
    ((∀ k : Fin 16, s.keypad[k] = false) →
      ∃ t, exec (.ldVxK x) s = .next t ∧ t.pc = s.pc - 2#16 ∧ ChangesOnly (· = .pc) s t)

/-- R172: `FX15` sets DT to Vx; the countdown of the same step then leaves Vx - 1, or 0. -/
def Obligations.SetDelayTimer : Prop :=
  ∀ (x : Nibble) (s : State), decodeWord (0xF#4 ++ x ++ 0x15#8) = some (.ldDtVx x) ∧
    ∃ t, exec (.ldDtVx x) s = .next t ∧ t.delayTimer = s.getReg x ∧
      t.tick.delayTimer.toNat = (s.getReg x).toNat - 1 ∧ ChangesOnly (· = .delayTimer) s t

/-- `FX18` sets ST to Vx; the countdown of the same step then leaves Vx - 1, or 0, and signals
`sound_expired` exactly when Vx is 1, whatever ST was (spec decision D17). -/
def Obligations.SetSoundTimer : Prop :=
  ∀ (x : Nibble) (s : State), decodeWord (0xF#4 ++ x ++ 0x18#8) = some (.ldStVx x) ∧
    (∃ t, exec (.ldStVx x) s = .next t ∧ t.soundTimer = s.getReg x ∧
      t.tick.soundTimer.toNat = (s.getReg x).toNat - 1 ∧ ChangesOnly (· = .soundTimer) s t) ∧
    (∀ p : State, p.fetch = some (0xF#4 ++ x ++ 0x18#8) →
      (hostStep p).2 = ⟨.ok, decide (p.getReg x = 1#8)⟩)
end

