-- ==== Sys2Proof/Laws/Decode.lean ====
section
/-! SUPPORT. The instruction fields of a word written out field by field, in the three layouts of
spec/30_encoding.md R73: `F NNN`, `F X NN` and `F X Y N`; and a word taken apart into its bytes. -/

namespace Sys2Proof

/-- The high part of a concatenation. -/
theorem extract_append_high {m n : Nat} (a : BitVec m) (b : BitVec n) :
    (a ++ b).extractLsb' n m = a := by
  ext i hi; simp [BitVec.getLsbD_append, BitVec.getLsbD_eq_getElem hi]

/-- A field inside the low part of a concatenation. -/
theorem extract_append_low {m n k l : Nat} (a : BitVec m) (b : BitVec n) (h : k + l ≤ n) :
    (a ++ b).extractLsb' k l = b.extractLsb' k l := by
  ext i hi
  simp only [BitVec.getElem_extractLsb', BitVec.getLsbD_append]
  rw [if_pos (by omega)]

/-- A field inside the high part of a concatenation. -/
theorem extract_append_above {m n k l : Nat} (a : BitVec m) (b : BitVec n) (h : n ≤ k) :
    (a ++ b).extractLsb' k l = a.extractLsb' (k - n) l := by
  ext i hi
  simp only [BitVec.getElem_extractLsb', BitVec.getLsbD_append]
  rw [if_neg (by omega), show k + i - n = k - n + i by omega]

/-- The whole of a bit vector as a field. -/
theorem extract_all {n : Nat} (a : BitVec n) : a.extractLsb' 0 n = a := by
  ext i hi; simp

/-- A bit vector is its high part and its low part. -/
theorem append_extract {m n : Nat} (a : BitVec (m + n)) :
    a.extractLsb' n m ++ a.extractLsb' 0 n = a := by
  ext i hi
  simp only [BitVec.getElem_append, BitVec.getElem_extractLsb']
  split
  · simp [BitVec.getLsbD_eq_getElem hi]
  · rename_i h
    rw [show n + (i - n) = i by omega, BitVec.getLsbD_eq_getElem hi]

/-- A mask over a concatenation masks each part: the fixed bits of an opcode row, field by field. -/
theorem append_and_append {m n : Nat} (a c : BitVec m) (b d : BitVec n) :
    (a ++ b) &&& (c ++ d) = (a &&& c) ++ (b &&& d) := by
  ext i hi; simp

variable (f x y n : Nibble) (nn : Byte) (nnn : Addr)

@[simp] theorem fieldF_nnn : fieldF (f ++ nnn) = f :=
  extract_append_high f nnn

@[simp] theorem fieldNNN_nnn : fieldNNN (f ++ nnn) = nnn :=
  (extract_append_low f nnn (by omega)).trans (extract_all nnn)

@[simp] theorem fieldF_xnn : fieldF (f ++ x ++ nn) = f :=
  (extract_append_above (f ++ x) nn (by omega)).trans (extract_append_high f x)

@[simp] theorem fieldX_xnn : fieldX (f ++ x ++ nn) = x :=
  (extract_append_above (f ++ x) nn (by omega)).trans
    ((extract_append_low f x (by omega)).trans (extract_all x))

@[simp] theorem fieldNN_xnn : fieldNN (f ++ x ++ nn) = nn :=
  (extract_append_low (f ++ x) nn (by omega)).trans (extract_all nn)

@[simp] theorem fieldF_xyn : fieldF (f ++ x ++ y ++ n) = f :=
  (extract_append_above (f ++ x ++ y) n (by omega)).trans
    ((extract_append_above (f ++ x) y (by omega)).trans (extract_append_high f x))

@[simp] theorem fieldX_xyn : fieldX (f ++ x ++ y ++ n) = x :=
  (extract_append_above (f ++ x ++ y) n (by omega)).trans
    ((extract_append_above (f ++ x) y (by omega)).trans
      ((extract_append_low f x (by omega)).trans (extract_all x)))

@[simp] theorem fieldY_xyn : fieldY (f ++ x ++ y ++ n) = y :=
  (extract_append_above (f ++ x ++ y) n (by omega)).trans
    ((extract_append_low (f ++ x) y (by omega)).trans (extract_all y))

@[simp] theorem fieldN_xyn : fieldN (f ++ x ++ y ++ n) = n :=
  (extract_append_low (f ++ x ++ y) n (by omega)).trans (extract_all n)

/-- A word of the layout `F NNN`, put together from its fields. -/
theorem word_of_nnn (op : Word) : fieldF op ++ fieldNNN op = op :=
  append_extract (m := 4) (n := 12) op

/-- A word of the layout `F X NN`, put together from its fields. -/
theorem word_of_xnn (op : Word) : fieldF op ++ fieldX op ++ fieldNN op = op := by
  conv_rhs => rw [← append_extract (m := 8) (n := 8) op,
    ← append_extract (m := 4) (n := 4) (op.extractLsb' 8 8)]
  congr 1
  congr 1 <;> · ext i hi; simp [fieldF, fieldX, ← Nat.add_assoc]; grind

/-- A word of the layout `F X Y N`, put together from its fields. -/
theorem word_of_xyn (op : Word) : fieldF op ++ fieldX op ++ fieldY op ++ fieldN op = op := by
  conv_rhs => rw [← append_extract (m := 12) (n := 4) op,
    ← append_extract (m := 8) (n := 4) (op.extractLsb' 4 12),
    ← append_extract (m := 4) (n := 4) ((op.extractLsb' 4 12).extractLsb' 4 8)]
  congr 1
  congr 1
  · congr 1 <;> · ext i hi; simp [fieldF, fieldX, ← Nat.add_assoc]; grind
  · ext i hi; simp [fieldY]; grind

/-- The byte `NN` is the fields `Y` and `N`. -/
theorem fieldNN_eq (op : Word) : fieldNN op = fieldY op ++ fieldN op := by
  have h := append_extract (m := 4) (n := 4) (fieldNN op)
  rw [← h]
  congr 1 <;> · ext i hi; simp [fieldNN, fieldY, fieldN]

/-- A word's bytes, put together again. -/
@[simp] theorem wordOfBytes_bytes (op : Word) : wordOfBytes (highByte op) (lowByte op) = op :=
  append_extract (m := 8) (n := 8) op

@[simp] theorem highByte_wordOfBytes (hi lo : Byte) : highByte (wordOfBytes hi lo) = hi :=
  extract_append_high hi lo

@[simp] theorem lowByte_wordOfBytes (hi lo : Byte) : lowByte (wordOfBytes hi lo) = lo :=
  (extract_append_low hi lo (by omega)).trans (extract_all lo)

end Sys2Proof
end

