-- ==== Sys2Proof/Laws/Memory.lean ====
section
/-! SUPPORT. Memory: a read after a write, and that every memory operation keeps the canonical form
(spec/20_memory.md R55, R62; log entry 8). -/

namespace Sys2Proof.Machine

/-! ### Reads after writes -/

@[simp] theorem Memory.read_nil (a : Nat) : Memory.read [] a = Memory.unlisted a := rfl

theorem Memory.read_insert (m : Memory) (a b : Nat) (v : Byte) :
    (m.insert a v).read b = if b = a then v else m.read b := by
  induction m with
  | nil => simp only [Memory.insert, Memory.read, eq_comm (a := a)]
  | cons c rest ih =>
    obtain ⟨k, w⟩ := c
    unfold Memory.insert
    split
    · rw [Memory.read]; simp only [eq_comm (a := a)]
    · split
      · subst k
        simp only [Memory.read, eq_comm (a := b)]
        split <;> rfl
      · simp only [Memory.read, ih]
        split <;> split <;> first | rfl | omega

theorem Memory.read_remove (m : Memory) (a b : Nat) :
    (m.remove a).read b = if b = a then Memory.unlisted b else m.read b := by
  induction m with
  | nil => simp [Memory.remove]
  | cons c rest ih =>
    obtain ⟨k, w⟩ := c
    unfold Memory.remove at ih ⊢
    rw [List.filter_cons]
    split
    · rename_i h
      have hk : k ≠ a := by simpa using h
      simp only [Memory.read, ih]
      split <;> split <;> first | rfl | omega
    · rename_i h
      have hk : k = a := by simpa using h
      rw [ih]
      simp only [Memory.read]
      split
      · rfl
      · rw [if_neg (by omega)]

/-- A read after a write inside memory: the byte written at its address, the old byte elsewhere. -/
theorem Memory.read_write (m : Memory) (a b : Nat) (v : Byte) (ha : a ≤ 0xFFF) :
    (m.write a v).read b = if b = a then v else m.read b := by
  unfold Memory.write
  rw [if_pos ha]
  split
  · rename_i h
    rw [Memory.read_remove]
    split
    · rename_i hb; rw [h, hb]
    · rfl
  · rw [Memory.read_insert]

/-- A write past 0xFFF is not performed. -/
theorem Memory.write_outside (m : Memory) (a : Nat) (v : Byte) (ha : 0xFFF < a) :
    m.write a v = m := by
  unfold Memory.write
  rw [if_neg (by omega)]

/-- A read after a block of writes that stays inside memory. -/
theorem Memory.read_writeBytes (bytes : List Byte) (m : Memory) (a b : Nat)
    (h : a + bytes.length ≤ 0x1000) :
    (m.writeBytes a bytes).read b =
      if h : a ≤ b ∧ b < a + bytes.length then bytes[b - a]'(by omega) else m.read b := by
  induction bytes generalizing m a with
  | nil => rw [dif_neg (by simp)]; rfl
  | cons v rest ih =>
    simp only [List.length_cons] at h
    rw [Memory.writeBytes, ih (m.write a v) (a + 1) (by omega)]
    by_cases hb : a ≤ b ∧ b < a + (v :: rest).length
    · rw [dif_pos hb]
      simp only [List.length_cons] at hb
      by_cases hab : b = a
      · subst b
        rw [dif_neg (by omega), Memory.read_write _ _ _ _ (by omega), if_pos rfl]
        simp
      · rw [dif_pos (by omega), List.getElem_cons, dif_neg (by omega)]
        congr 1
    · rw [dif_neg hb]
      simp only [List.length_cons] at hb
      rw [dif_neg (by omega), Memory.read_write _ _ _ _ (by omega), if_neg (by omega)]

/-! ### The bytes of a block -/

@[simp] theorem Memory.readBytes_length (m : Memory) (a n : Nat) : (m.readBytes a n).length = n := by
  simp [Memory.readBytes]

@[simp] theorem Memory.readBytes_getElem (m : Memory) (a n k : Nat)
    (h : k < (m.readBytes a n).length) : (m.readBytes a n)[k] = m.read (a + k) := by
  simp [Memory.readBytes]

/-! ### The canonical form -/

theorem Memory.wf_nil : Memory.wf [] = true := rfl

theorem Memory.wf_cons (a : Nat) (v : Byte) (rest : Memory) :
    Memory.wf ((a, v) :: rest) = true ↔
      a ≤ 0xFFF ∧ v ≠ Memory.unlisted a ∧ (∀ c ∈ rest, a < c.1) ∧ Memory.wf rest = true := by
  simp only [Memory.wf, Bool.and_eq_true, decide_eq_true_eq, List.all_eq_true, and_assoc]

theorem Memory.mem_insert (m : Memory) (a : Nat) (v : Byte) (c : Host.Cell)
    (h : c ∈ m.insert a v) : c = (a, v) ∨ c ∈ m := by
  induction m with
  | nil => simpa [Memory.insert] using h
  | cons d rest ih =>
    obtain ⟨k, w⟩ := d
    unfold Memory.insert at h
    split at h
    · simpa using h
    · split at h
      · rcases List.mem_cons.mp h with h | h
        · exact .inl h
        · exact .inr (List.mem_cons_of_mem _ h)
      · rcases List.mem_cons.mp h with h | h
        · exact .inr (by simp [h])
        · exact (ih h).imp id (List.mem_cons_of_mem _)

theorem Memory.wf_insert (m : Memory) (a : Nat) (v : Byte) (hm : m.wf = true) (ha : a ≤ 0xFFF)
    (hv : v ≠ Memory.unlisted a) : (m.insert a v).wf = true := by
  induction m with
  | nil => exact (Memory.wf_cons a v []).mpr ⟨ha, hv, by simp, rfl⟩
  | cons d rest ih =>
    obtain ⟨k, w⟩ := d
    obtain ⟨hk, hw, hr, hrest⟩ := (Memory.wf_cons k w rest).mp hm
    unfold Memory.insert
    split
    · rename_i hak
      refine (Memory.wf_cons a v _).mpr ⟨ha, hv, fun c hc => ?_, hm⟩
      rcases List.mem_cons.mp hc with hc | hc
      · simpa [hc] using hak
      · exact lt_trans hak (hr c hc)
    · split
      · rename_i hak
        exact (Memory.wf_cons a v _).mpr ⟨ha, hv, fun c hc => hak ▸ hr c hc, hrest⟩
      · refine (Memory.wf_cons k w _).mpr ⟨hk, hw, fun c hc => ?_, ih hrest⟩
        rcases Memory.mem_insert rest a v c hc with hc | hc
        · simp only [hc]; omega
        · exact hr c hc

theorem Memory.wf_remove (m : Memory) (a : Nat) (hm : m.wf = true) : (m.remove a).wf = true := by
  induction m with
  | nil => rfl
  | cons d rest ih =>
    obtain ⟨k, w⟩ := d
    obtain ⟨hk, hw, hr, hrest⟩ := (Memory.wf_cons k w rest).mp hm
    unfold Memory.remove at ih ⊢
    rw [List.filter_cons]
    split
    · exact (Memory.wf_cons k w _).mpr
        ⟨hk, hw, fun c hc => hr c (List.mem_of_mem_filter hc), ih hrest⟩
    · exact ih hrest

/-- A write keeps the canonical form. -/
theorem Memory.wf_write (m : Memory) (a : Nat) (v : Byte) (hm : m.wf = true) :
    (m.write a v).wf = true := by
  unfold Memory.write
  split
  · split
    · exact Memory.wf_remove m a hm
    · rename_i ha hv
      exact Memory.wf_insert m a v hm ha hv
  · exact hm

/-- A block of writes keeps the canonical form. -/
theorem Memory.wf_writeBytes (bytes : List Byte) (m : Memory) (a : Nat) (hm : m.wf = true) :
    (m.writeBytes a bytes).wf = true := by
  induction bytes generalizing m a with
  | nil => exact hm
  | cons v rest ih => exact ih _ _ (Memory.wf_write m a v hm)

/-- The memory after reset is in canonical form. -/
theorem Memory.wf_reset : State.reset.memory.wf = true := rfl

end Sys2Proof.Machine
end

