-- ==== Sys2Proof/Laws/State.lean ====
section
/-! SUPPORT. What each state update leaves in each field: one lemma per field and update, so that no
later proof unfolds a record update. -/

namespace Sys2Proof.Machine

variable (s : State)

/-! ### `setReg` -/

@[simp] theorem State.setReg_memory (x : Nibble) (v : Byte) :
    (s.setReg x v).memory = s.memory := rfl
@[simp] theorem State.setReg_registers (x : Nibble) (v : Byte) :
    (s.setReg x v).registers = s.registers.set x.toNat v x.isLt := rfl
@[simp] theorem State.setReg_index (x : Nibble) (v : Byte) : (s.setReg x v).index = s.index := rfl
@[simp] theorem State.setReg_pc (x : Nibble) (v : Byte) : (s.setReg x v).pc = s.pc := rfl
@[simp] theorem State.setReg_stack (x : Nibble) (v : Byte) : (s.setReg x v).stack = s.stack := rfl
@[simp] theorem State.setReg_sp (x : Nibble) (v : Byte) : (s.setReg x v).sp = s.sp := rfl
@[simp] theorem State.setReg_delayTimer (x : Nibble) (v : Byte) :
    (s.setReg x v).delayTimer = s.delayTimer := rfl
@[simp] theorem State.setReg_soundTimer (x : Nibble) (v : Byte) :
    (s.setReg x v).soundTimer = s.soundTimer := rfl
@[simp] theorem State.setReg_framebuffer (x : Nibble) (v : Byte) :
    (s.setReg x v).framebuffer = s.framebuffer := rfl
@[simp] theorem State.setReg_keypad (x : Nibble) (v : Byte) :
    (s.setReg x v).keypad = s.keypad := rfl
@[simp] theorem State.setReg_draws (x : Nibble) (v : Byte) : (s.setReg x v).draws = s.draws := rfl

/-! ### `setFirstRegs` -/

@[simp] theorem State.setFirstRegs_memory (bytes : List Byte) :
    (s.setFirstRegs bytes).memory = s.memory := rfl
@[simp] theorem State.setFirstRegs_index (bytes : List Byte) :
    (s.setFirstRegs bytes).index = s.index := rfl
@[simp] theorem State.setFirstRegs_pc (bytes : List Byte) : (s.setFirstRegs bytes).pc = s.pc := rfl
@[simp] theorem State.setFirstRegs_stack (bytes : List Byte) :
    (s.setFirstRegs bytes).stack = s.stack := rfl
@[simp] theorem State.setFirstRegs_sp (bytes : List Byte) : (s.setFirstRegs bytes).sp = s.sp := rfl
@[simp] theorem State.setFirstRegs_delayTimer (bytes : List Byte) :
    (s.setFirstRegs bytes).delayTimer = s.delayTimer := rfl
@[simp] theorem State.setFirstRegs_soundTimer (bytes : List Byte) :
    (s.setFirstRegs bytes).soundTimer = s.soundTimer := rfl
@[simp] theorem State.setFirstRegs_framebuffer (bytes : List Byte) :
    (s.setFirstRegs bytes).framebuffer = s.framebuffer := rfl
@[simp] theorem State.setFirstRegs_keypad (bytes : List Byte) :
    (s.setFirstRegs bytes).keypad = s.keypad := rfl
@[simp] theorem State.setFirstRegs_draws (bytes : List Byte) :
    (s.setFirstRegs bytes).draws = s.draws := rfl

/-! ### `setIndex` -/

@[simp] theorem State.setIndex_memory (v : Word) : (s.setIndex v).memory = s.memory := rfl
@[simp] theorem State.setIndex_registers (v : Word) : (s.setIndex v).registers = s.registers := rfl
@[simp] theorem State.setIndex_index (v : Word) : (s.setIndex v).index = v := rfl
@[simp] theorem State.setIndex_pc (v : Word) : (s.setIndex v).pc = s.pc := rfl
@[simp] theorem State.setIndex_stack (v : Word) : (s.setIndex v).stack = s.stack := rfl
@[simp] theorem State.setIndex_sp (v : Word) : (s.setIndex v).sp = s.sp := rfl
@[simp] theorem State.setIndex_delayTimer (v : Word) :
    (s.setIndex v).delayTimer = s.delayTimer := rfl
@[simp] theorem State.setIndex_soundTimer (v : Word) :
    (s.setIndex v).soundTimer = s.soundTimer := rfl
@[simp] theorem State.setIndex_framebuffer (v : Word) :
    (s.setIndex v).framebuffer = s.framebuffer := rfl
@[simp] theorem State.setIndex_keypad (v : Word) : (s.setIndex v).keypad = s.keypad := rfl
@[simp] theorem State.setIndex_draws (v : Word) : (s.setIndex v).draws = s.draws := rfl

/-! ### `setDelay` -/

@[simp] theorem State.setDelay_memory (v : Byte) : (s.setDelay v).memory = s.memory := rfl
@[simp] theorem State.setDelay_registers (v : Byte) : (s.setDelay v).registers = s.registers := rfl
@[simp] theorem State.setDelay_index (v : Byte) : (s.setDelay v).index = s.index := rfl
@[simp] theorem State.setDelay_pc (v : Byte) : (s.setDelay v).pc = s.pc := rfl
@[simp] theorem State.setDelay_stack (v : Byte) : (s.setDelay v).stack = s.stack := rfl
@[simp] theorem State.setDelay_sp (v : Byte) : (s.setDelay v).sp = s.sp := rfl
@[simp] theorem State.setDelay_delayTimer (v : Byte) : (s.setDelay v).delayTimer = v := rfl
@[simp] theorem State.setDelay_soundTimer (v : Byte) :
    (s.setDelay v).soundTimer = s.soundTimer := rfl
@[simp] theorem State.setDelay_framebuffer (v : Byte) :
    (s.setDelay v).framebuffer = s.framebuffer := rfl
@[simp] theorem State.setDelay_keypad (v : Byte) : (s.setDelay v).keypad = s.keypad := rfl
@[simp] theorem State.setDelay_draws (v : Byte) : (s.setDelay v).draws = s.draws := rfl

/-! ### `setSound` -/

@[simp] theorem State.setSound_memory (v : Byte) : (s.setSound v).memory = s.memory := rfl
@[simp] theorem State.setSound_registers (v : Byte) : (s.setSound v).registers = s.registers := rfl
@[simp] theorem State.setSound_index (v : Byte) : (s.setSound v).index = s.index := rfl
@[simp] theorem State.setSound_pc (v : Byte) : (s.setSound v).pc = s.pc := rfl
@[simp] theorem State.setSound_stack (v : Byte) : (s.setSound v).stack = s.stack := rfl
@[simp] theorem State.setSound_sp (v : Byte) : (s.setSound v).sp = s.sp := rfl
@[simp] theorem State.setSound_delayTimer (v : Byte) :
    (s.setSound v).delayTimer = s.delayTimer := rfl
@[simp] theorem State.setSound_soundTimer (v : Byte) : (s.setSound v).soundTimer = v := rfl
@[simp] theorem State.setSound_framebuffer (v : Byte) :
    (s.setSound v).framebuffer = s.framebuffer := rfl
@[simp] theorem State.setSound_keypad (v : Byte) : (s.setSound v).keypad = s.keypad := rfl
@[simp] theorem State.setSound_draws (v : Byte) : (s.setSound v).draws = s.draws := rfl

/-! ### `setFramebuffer` -/

@[simp] theorem State.setFramebuffer_memory (fb : Framebuffer) :
    (s.setFramebuffer fb).memory = s.memory := rfl
@[simp] theorem State.setFramebuffer_registers (fb : Framebuffer) :
    (s.setFramebuffer fb).registers = s.registers := rfl
@[simp] theorem State.setFramebuffer_index (fb : Framebuffer) :
    (s.setFramebuffer fb).index = s.index := rfl
@[simp] theorem State.setFramebuffer_pc (fb : Framebuffer) : (s.setFramebuffer fb).pc = s.pc := rfl
@[simp] theorem State.setFramebuffer_stack (fb : Framebuffer) :
    (s.setFramebuffer fb).stack = s.stack := rfl
@[simp] theorem State.setFramebuffer_sp (fb : Framebuffer) : (s.setFramebuffer fb).sp = s.sp := rfl
@[simp] theorem State.setFramebuffer_delayTimer (fb : Framebuffer) :
    (s.setFramebuffer fb).delayTimer = s.delayTimer := rfl
@[simp] theorem State.setFramebuffer_soundTimer (fb : Framebuffer) :
    (s.setFramebuffer fb).soundTimer = s.soundTimer := rfl
@[simp] theorem State.setFramebuffer_framebuffer (fb : Framebuffer) :
    (s.setFramebuffer fb).framebuffer = fb := rfl
@[simp] theorem State.setFramebuffer_keypad (fb : Framebuffer) :
    (s.setFramebuffer fb).keypad = s.keypad := rfl
@[simp] theorem State.setFramebuffer_draws (fb : Framebuffer) :
    (s.setFramebuffer fb).draws = s.draws := rfl

/-! ### `jump` -/

@[simp] theorem State.jump_memory (t : Word) : (s.jump t).memory = s.memory := rfl
@[simp] theorem State.jump_registers (t : Word) : (s.jump t).registers = s.registers := rfl
@[simp] theorem State.jump_index (t : Word) : (s.jump t).index = s.index := rfl
@[simp] theorem State.jump_pc (t : Word) : (s.jump t).pc = t := rfl
@[simp] theorem State.jump_stack (t : Word) : (s.jump t).stack = s.stack := rfl
@[simp] theorem State.jump_sp (t : Word) : (s.jump t).sp = s.sp := rfl
@[simp] theorem State.jump_delayTimer (t : Word) : (s.jump t).delayTimer = s.delayTimer := rfl
@[simp] theorem State.jump_soundTimer (t : Word) : (s.jump t).soundTimer = s.soundTimer := rfl
@[simp] theorem State.jump_framebuffer (t : Word) : (s.jump t).framebuffer = s.framebuffer := rfl
@[simp] theorem State.jump_keypad (t : Word) : (s.jump t).keypad = s.keypad := rfl
@[simp] theorem State.jump_draws (t : Word) : (s.jump t).draws = s.draws := rfl

/-! ### `advance` -/

@[simp] theorem State.advance_memory : s.advance.memory = s.memory := rfl
@[simp] theorem State.advance_registers : s.advance.registers = s.registers := rfl
@[simp] theorem State.advance_index : s.advance.index = s.index := rfl
@[simp] theorem State.advance_pc : s.advance.pc = s.pc + 2#16 := rfl
@[simp] theorem State.advance_stack : s.advance.stack = s.stack := rfl
@[simp] theorem State.advance_sp : s.advance.sp = s.sp := rfl
@[simp] theorem State.advance_delayTimer : s.advance.delayTimer = s.delayTimer := rfl
@[simp] theorem State.advance_soundTimer : s.advance.soundTimer = s.soundTimer := rfl
@[simp] theorem State.advance_framebuffer : s.advance.framebuffer = s.framebuffer := rfl
@[simp] theorem State.advance_keypad : s.advance.keypad = s.keypad := rfl
@[simp] theorem State.advance_draws : s.advance.draws = s.draws := rfl

/-! ### `repeatInstr` -/

@[simp] theorem State.repeatInstr_memory : s.repeatInstr.memory = s.memory := rfl
@[simp] theorem State.repeatInstr_registers : s.repeatInstr.registers = s.registers := rfl
@[simp] theorem State.repeatInstr_index : s.repeatInstr.index = s.index := rfl
@[simp] theorem State.repeatInstr_pc : s.repeatInstr.pc = s.pc - 2#16 := rfl
@[simp] theorem State.repeatInstr_stack : s.repeatInstr.stack = s.stack := rfl
@[simp] theorem State.repeatInstr_sp : s.repeatInstr.sp = s.sp := rfl
@[simp] theorem State.repeatInstr_delayTimer : s.repeatInstr.delayTimer = s.delayTimer := rfl
@[simp] theorem State.repeatInstr_soundTimer : s.repeatInstr.soundTimer = s.soundTimer := rfl
@[simp] theorem State.repeatInstr_framebuffer : s.repeatInstr.framebuffer = s.framebuffer := rfl
@[simp] theorem State.repeatInstr_keypad : s.repeatInstr.keypad = s.keypad := rfl
@[simp] theorem State.repeatInstr_draws : s.repeatInstr.draws = s.draws := rfl

/-! ### `tick` -/

@[simp] theorem State.tick_memory : s.tick.memory = s.memory := rfl
@[simp] theorem State.tick_registers : s.tick.registers = s.registers := rfl
@[simp] theorem State.tick_index : s.tick.index = s.index := rfl
@[simp] theorem State.tick_pc : s.tick.pc = s.pc := rfl
@[simp] theorem State.tick_stack : s.tick.stack = s.stack := rfl
@[simp] theorem State.tick_sp : s.tick.sp = s.sp := rfl
@[simp] theorem State.tick_delayTimer : s.tick.delayTimer = countDown s.delayTimer := rfl
@[simp] theorem State.tick_soundTimer : s.tick.soundTimer = countDown s.soundTimer := rfl
@[simp] theorem State.tick_framebuffer : s.tick.framebuffer = s.framebuffer := rfl
@[simp] theorem State.tick_keypad : s.tick.keypad = s.keypad := rfl
@[simp] theorem State.tick_draws : s.tick.draws = s.draws := rfl

/-! ### `placeWord` -/

@[simp] theorem State.placeWord_memory (op : Word) :
    (s.placeWord op).memory = s.memory.writeBytes s.pc.toNat [highByte op, lowByte op] := rfl
@[simp] theorem State.placeWord_registers (op : Word) :
    (s.placeWord op).registers = s.registers := rfl
@[simp] theorem State.placeWord_index (op : Word) : (s.placeWord op).index = s.index := rfl
@[simp] theorem State.placeWord_pc (op : Word) : (s.placeWord op).pc = s.pc := rfl
@[simp] theorem State.placeWord_stack (op : Word) : (s.placeWord op).stack = s.stack := rfl
@[simp] theorem State.placeWord_sp (op : Word) : (s.placeWord op).sp = s.sp := rfl
@[simp] theorem State.placeWord_delayTimer (op : Word) :
    (s.placeWord op).delayTimer = s.delayTimer := rfl
@[simp] theorem State.placeWord_soundTimer (op : Word) :
    (s.placeWord op).soundTimer = s.soundTimer := rfl
@[simp] theorem State.placeWord_framebuffer (op : Word) :
    (s.placeWord op).framebuffer = s.framebuffer := rfl
@[simp] theorem State.placeWord_keypad (op : Word) : (s.placeWord op).keypad = s.keypad := rfl
@[simp] theorem State.placeWord_draws (op : Word) : (s.placeWord op).draws = s.draws := rfl

/-! ### `setFlag` -/

@[simp] theorem State.setFlag_memory (c : Bool) : (s.setFlag c).memory = s.memory := rfl
@[simp] theorem State.setFlag_index (c : Bool) : (s.setFlag c).index = s.index := rfl
@[simp] theorem State.setFlag_pc (c : Bool) : (s.setFlag c).pc = s.pc := rfl
@[simp] theorem State.setFlag_stack (c : Bool) : (s.setFlag c).stack = s.stack := rfl
@[simp] theorem State.setFlag_sp (c : Bool) : (s.setFlag c).sp = s.sp := rfl
@[simp] theorem State.setFlag_delayTimer (c : Bool) : (s.setFlag c).delayTimer = s.delayTimer := rfl
@[simp] theorem State.setFlag_soundTimer (c : Bool) : (s.setFlag c).soundTimer = s.soundTimer := rfl
@[simp] theorem State.setFlag_framebuffer (c : Bool) :
    (s.setFlag c).framebuffer = s.framebuffer := rfl
@[simp] theorem State.setFlag_keypad (c : Bool) : (s.setFlag c).keypad = s.keypad := rfl
@[simp] theorem State.setFlag_draws (c : Bool) : (s.setFlag c).draws = s.draws := rfl

/-! ### `setResultFlag` -/

@[simp] theorem State.setResultFlag_memory (x : Nibble) (v : Byte) (c : Bool) :
    (s.setResultFlag x v c).memory = s.memory := rfl
@[simp] theorem State.setResultFlag_index (x : Nibble) (v : Byte) (c : Bool) :
    (s.setResultFlag x v c).index = s.index := rfl
@[simp] theorem State.setResultFlag_pc (x : Nibble) (v : Byte) (c : Bool) :
    (s.setResultFlag x v c).pc = s.pc := rfl
@[simp] theorem State.setResultFlag_stack (x : Nibble) (v : Byte) (c : Bool) :
    (s.setResultFlag x v c).stack = s.stack := rfl
@[simp] theorem State.setResultFlag_sp (x : Nibble) (v : Byte) (c : Bool) :
    (s.setResultFlag x v c).sp = s.sp := rfl
@[simp] theorem State.setResultFlag_delayTimer (x : Nibble) (v : Byte) (c : Bool) :
    (s.setResultFlag x v c).delayTimer = s.delayTimer := rfl
@[simp] theorem State.setResultFlag_soundTimer (x : Nibble) (v : Byte) (c : Bool) :
    (s.setResultFlag x v c).soundTimer = s.soundTimer := rfl
@[simp] theorem State.setResultFlag_framebuffer (x : Nibble) (v : Byte) (c : Bool) :
    (s.setResultFlag x v c).framebuffer = s.framebuffer := rfl
@[simp] theorem State.setResultFlag_keypad (x : Nibble) (v : Byte) (c : Bool) :
    (s.setResultFlag x v c).keypad = s.keypad := rfl
@[simp] theorem State.setResultFlag_draws (x : Nibble) (v : Byte) (c : Bool) :
    (s.setResultFlag x v c).draws = s.draws := rfl

/-! ### `drawSprite` -/

@[simp] theorem State.drawSprite_memory (bytes : List Byte) (vx vy : Byte) :
    (s.drawSprite bytes vx vy).memory = s.memory := rfl
@[simp] theorem State.drawSprite_index (bytes : List Byte) (vx vy : Byte) :
    (s.drawSprite bytes vx vy).index = s.index := rfl
@[simp] theorem State.drawSprite_pc (bytes : List Byte) (vx vy : Byte) :
    (s.drawSprite bytes vx vy).pc = s.pc := rfl
@[simp] theorem State.drawSprite_stack (bytes : List Byte) (vx vy : Byte) :
    (s.drawSprite bytes vx vy).stack = s.stack := rfl
@[simp] theorem State.drawSprite_sp (bytes : List Byte) (vx vy : Byte) :
    (s.drawSprite bytes vx vy).sp = s.sp := rfl
@[simp] theorem State.drawSprite_delayTimer (bytes : List Byte) (vx vy : Byte) :
    (s.drawSprite bytes vx vy).delayTimer = s.delayTimer := rfl
@[simp] theorem State.drawSprite_soundTimer (bytes : List Byte) (vx vy : Byte) :
    (s.drawSprite bytes vx vy).soundTimer = s.soundTimer := rfl
@[simp] theorem State.drawSprite_framebuffer (bytes : List Byte) (vx vy : Byte) :
    (s.drawSprite bytes vx vy).framebuffer = (flipPixels (spritePixels bytes vx.toNat vy.toNat) s.framebuffer false).1 := rfl
@[simp] theorem State.drawSprite_keypad (bytes : List Byte) (vx vy : Byte) :
    (s.drawSprite bytes vx vy).keypad = s.keypad := rfl
@[simp] theorem State.drawSprite_draws (bytes : List Byte) (vx vy : Byte) :
    (s.drawSprite bytes vx vy).draws = s.draws := rfl

/-! ### `rndWith` -/

@[simp] theorem rndWith_memory (rnd : Byte) (x : Nibble) (nn : Byte) :
    (rndWith rnd x nn s).memory = s.memory := rfl
@[simp] theorem rndWith_index (rnd : Byte) (x : Nibble) (nn : Byte) :
    (rndWith rnd x nn s).index = s.index := rfl
@[simp] theorem rndWith_pc (rnd : Byte) (x : Nibble) (nn : Byte) :
    (rndWith rnd x nn s).pc = s.pc := rfl
@[simp] theorem rndWith_stack (rnd : Byte) (x : Nibble) (nn : Byte) :
    (rndWith rnd x nn s).stack = s.stack := rfl
@[simp] theorem rndWith_sp (rnd : Byte) (x : Nibble) (nn : Byte) :
    (rndWith rnd x nn s).sp = s.sp := rfl
@[simp] theorem rndWith_delayTimer (rnd : Byte) (x : Nibble) (nn : Byte) :
    (rndWith rnd x nn s).delayTimer = s.delayTimer := rfl
@[simp] theorem rndWith_soundTimer (rnd : Byte) (x : Nibble) (nn : Byte) :
    (rndWith rnd x nn s).soundTimer = s.soundTimer := rfl
@[simp] theorem rndWith_framebuffer (rnd : Byte) (x : Nibble) (nn : Byte) :
    (rndWith rnd x nn s).framebuffer = s.framebuffer := rfl
@[simp] theorem rndWith_keypad (rnd : Byte) (x : Nibble) (nn : Byte) :
    (rndWith rnd x nn s).keypad = s.keypad := rfl
@[simp] theorem rndWith_draws (rnd : Byte) (x : Nibble) (nn : Byte) :
    (rndWith rnd x nn s).draws = s.draws + 1 := rfl

/-! ### `writeKeypad` -/

@[simp] theorem writeKeypad_memory (keys : Vector Bool 16) :
    (writeKeypad keys s).memory = s.memory := rfl
@[simp] theorem writeKeypad_registers (keys : Vector Bool 16) :
    (writeKeypad keys s).registers = s.registers := rfl
@[simp] theorem writeKeypad_index (keys : Vector Bool 16) :
    (writeKeypad keys s).index = s.index := rfl
@[simp] theorem writeKeypad_pc (keys : Vector Bool 16) : (writeKeypad keys s).pc = s.pc := rfl
@[simp] theorem writeKeypad_stack (keys : Vector Bool 16) :
    (writeKeypad keys s).stack = s.stack := rfl
@[simp] theorem writeKeypad_sp (keys : Vector Bool 16) : (writeKeypad keys s).sp = s.sp := rfl
@[simp] theorem writeKeypad_delayTimer (keys : Vector Bool 16) :
    (writeKeypad keys s).delayTimer = s.delayTimer := rfl
@[simp] theorem writeKeypad_soundTimer (keys : Vector Bool 16) :
    (writeKeypad keys s).soundTimer = s.soundTimer := rfl
@[simp] theorem writeKeypad_framebuffer (keys : Vector Bool 16) :
    (writeKeypad keys s).framebuffer = s.framebuffer := rfl
@[simp] theorem writeKeypad_keypad (keys : Vector Bool 16) :
    (writeKeypad keys s).keypad = keys := rfl
@[simp] theorem writeKeypad_draws (keys : Vector Bool 16) :
    (writeKeypad keys s).draws = s.draws := rfl

/-! ### `skipIf` -/

@[simp] theorem State.skipIf_memory (c : Bool) : (s.skipIf c).memory = s.memory := by
  cases c <;> rfl
@[simp] theorem State.skipIf_registers (c : Bool) : (s.skipIf c).registers = s.registers := by
  cases c <;> rfl
@[simp] theorem State.skipIf_index (c : Bool) : (s.skipIf c).index = s.index := by
  cases c <;> rfl
@[simp] theorem State.skipIf_pc (c : Bool) :
    (s.skipIf c).pc = if c then s.pc + 2#16 else s.pc := by cases c <;> rfl
@[simp] theorem State.skipIf_stack (c : Bool) : (s.skipIf c).stack = s.stack := by
  cases c <;> rfl
@[simp] theorem State.skipIf_sp (c : Bool) : (s.skipIf c).sp = s.sp := by
  cases c <;> rfl
@[simp] theorem State.skipIf_delayTimer (c : Bool) : (s.skipIf c).delayTimer = s.delayTimer := by
  cases c <;> rfl
@[simp] theorem State.skipIf_soundTimer (c : Bool) : (s.skipIf c).soundTimer = s.soundTimer := by
  cases c <;> rfl
@[simp] theorem State.skipIf_framebuffer (c : Bool) : (s.skipIf c).framebuffer = s.framebuffer := by
  cases c <;> rfl
@[simp] theorem State.skipIf_keypad (c : Bool) : (s.skipIf c).keypad = s.keypad := by
  cases c <;> rfl
@[simp] theorem State.skipIf_draws (c : Bool) : (s.skipIf c).draws = s.draws := by
  cases c <;> rfl

end Sys2Proof.Machine
end

