-- ==== Sys2Proof/Laws/Ops.lean ====
section
/-! SUPPORT. One lemma per shared operation that says what it does: registers, blocks of memory, the
stack, pc, the failing and the two outcomes of an operation that may be out of bounds. -/

namespace Sys2Proof.Machine

/-! ### Registers -/

/-- A register read after a register write (R21). -/
theorem State.getReg_setReg (s : State) (x r : Nibble) (v : Byte) :
    (s.setReg x v).getReg r = if r = x then v else s.getReg r := by
  simp only [State.getReg, State.setReg, Vector.getElem_set, BitVec.toNat_inj, eq_comm (a := x)]

@[simp] theorem State.getReg_setReg_self (s : State) (x : Nibble) (v : Byte) :
    (s.setReg x v).getReg x = v := by
  rw [State.getReg_setReg, if_pos rfl]

/-- A register read after a result and its flag: the flag in VF, the result in Vx unless X = 15
(R143). -/
theorem State.getReg_setResultFlag (s : State) (x r : Nibble) (v : Byte) (c : Bool) :
    (s.setResultFlag x v c).getReg r =
      if r = 0xF#4 then flagByte c else if r = x then v else s.getReg r := by
  simp only [State.setResultFlag, State.setFlag, State.getReg_setReg]

theorem State.getReg_setFlag (s : State) (r : Nibble) (c : Bool) :
    (s.setFlag c).getReg r = if r = 0xF#4 then flagByte c else s.getReg r :=
  State.getReg_setReg s _ r _

/-- A register read after a block load: the bytes in the first registers, the rest as before. -/
theorem State.getReg_setFirstRegs (s : State) (bytes : List Byte) (r : Nibble) :
    (s.setFirstRegs bytes).getReg r = bytes[r.toNat]?.getD (s.getReg r) := by
  simp [State.getReg, State.setFirstRegs]

/-- Registers are read from the register file alone. -/
theorem State.getReg_congr (s t : State) (r : Nibble) (h : t.registers = s.registers) :
    t.getReg r = s.getReg r := by
  simp only [State.getReg, h]

@[simp] theorem State.getReg_setIndex (s : State) (v : Word) (r : Nibble) :
    (s.setIndex v).getReg r = s.getReg r := rfl
@[simp] theorem State.getReg_setDelay (s : State) (v : Byte) (r : Nibble) :
    (s.setDelay v).getReg r = s.getReg r := rfl
@[simp] theorem State.getReg_setSound (s : State) (v : Byte) (r : Nibble) :
    (s.setSound v).getReg r = s.getReg r := rfl
@[simp] theorem State.getReg_setFramebuffer (s : State) (fb : Framebuffer) (r : Nibble) :
    (s.setFramebuffer fb).getReg r = s.getReg r := rfl
@[simp] theorem State.getReg_jump (s : State) (t : Word) (r : Nibble) :
    (s.jump t).getReg r = s.getReg r := rfl
@[simp] theorem State.getReg_advance (s : State) (r : Nibble) : s.advance.getReg r = s.getReg r :=
  rfl
@[simp] theorem State.getReg_repeatInstr (s : State) (r : Nibble) :
    s.repeatInstr.getReg r = s.getReg r := rfl
@[simp] theorem State.getReg_tick (s : State) (r : Nibble) : s.tick.getReg r = s.getReg r := rfl
@[simp] theorem State.getReg_skipIf (s : State) (c : Bool) (r : Nibble) :
    (s.skipIf c).getReg r = s.getReg r := by cases c <;> rfl

/-- The block V0..Vx has one byte a register. -/
@[simp] theorem State.firstRegs_length (s : State) (x : Nibble) :
    (s.firstRegs x).length = x.toNat + 1 := by
  have := x.isLt
  simp [State.firstRegs]; omega

/-- Byte `k` of the block V0..Vx is Vk (R164). -/
@[simp] theorem State.firstRegs_getElem (s : State) (x : Nibble) (k : Nat)
    (h : k < (s.firstRegs x).length) :
    (s.firstRegs x)[k] = s.registers[k]'(by have := x.isLt; simp at h; omega) := by
  simp [State.firstRegs]

/-! ### Program counter -/

/-- The address of the executing instruction is where the step fetched it. -/
@[simp] theorem State.instrAddr_advance (s : State) : s.advance.instrAddr = s.pc := by
  simp [State.instrAddr]

/-! ### Blocks of memory -/

theorem inMemory_iff (a n : Nat) : inMemory a n = true ↔ n = 0 ∨ a + n - 1 ≤ 0xFFF := by
  simp [inMemory]

/-- A block of at least one byte is in memory when its last address is. -/
theorem inMemory_succ (a n : Nat) : inMemory a (n + 1) = true ↔ a + n ≤ 0xFFF := by
  simp [inMemory_iff]

theorem State.readBlock_of_in (s : State) (a n : Nat) (h : inMemory a n = true) :
    s.readBlock a n = some (s.memory.readBytes a n) := by
  simp [State.readBlock, h]

theorem State.readBlock_of_out (s : State) (a n : Nat) (h : inMemory a n = false) :
    s.readBlock a n = none := by
  simp [State.readBlock, h]

theorem State.writeBlock_of_in (s : State) (a : Nat) (bytes : List Byte)
    (h : inMemory a bytes.length = true) :
    s.writeBlock a bytes = some { s with memory := s.memory.writeBytes a bytes } := by
  simp [State.writeBlock, h]

theorem State.writeBlock_of_out (s : State) (a : Nat) (bytes : List Byte)
    (h : inMemory a bytes.length = false) : s.writeBlock a bytes = none := by
  simp [State.writeBlock, h]

/-- Everything a block read can do. -/
theorem State.readBlock_eq_some {s : State} {a n : Nat} {bytes : List Byte}
    (h : s.readBlock a n = some bytes) :
    inMemory a n = true ∧ bytes = s.memory.readBytes a n := by
  unfold State.readBlock at h
  split at h
  · rename_i hin; exact ⟨hin, (Option.some.inj h).symm⟩
  · cases h

/-- Everything a block write can do. -/
theorem State.writeBlock_eq_some {s t : State} {a : Nat} {bytes : List Byte}
    (h : s.writeBlock a bytes = some t) :
    inMemory a bytes.length = true ∧ t = { s with memory := s.memory.writeBytes a bytes } := by
  unfold State.writeBlock at h
  split at h
  · rename_i hin; exact ⟨hin, (Option.some.inj h).symm⟩
  · cases h

/-! ### Stack -/

/-- A push with room (R29). -/
theorem State.push_of_room (s : State) (h : s.sp.val < 16) :
    s.push = some { s with
      stack := s.stack.set s.sp.val s.pc h
      sp := ⟨s.sp.val + 1, by omega⟩ } := by
  simp [State.push, h]

theorem State.push_of_full (s : State) (h : s.sp.val = 16) : s.push = none := by
  simp [State.push, h]

/-- A pop of a stack that is not empty (R29). -/
theorem State.pop_of_some (s : State) (h : 0 < s.sp.val) :
    s.pop = some { s with
      pc := s.stack[s.sp.val - 1]'(by omega)
      sp := ⟨s.sp.val - 1, by omega⟩ } := by
  simp [State.pop, h]

theorem State.pop_of_empty (s : State) (h : s.sp.val = 0) : s.pop = none := by
  simp [State.pop, h]

/-- Everything a push can do. -/
theorem State.push_eq_some {s t : State} (h : s.push = some t) :
    ∃ hsp : s.sp.val < 16, t = { s with
      stack := s.stack.set s.sp.val s.pc hsp
      sp := ⟨s.sp.val + 1, by omega⟩ } := by
  unfold State.push at h
  split at h
  · rename_i hsp; exact ⟨hsp, (Option.some.inj h).symm⟩
  · cases h

/-- Everything a pop can do. -/
theorem State.pop_eq_some {s t : State} (h : s.pop = some t) :
    ∃ hsp : 0 < s.sp.val, t = { s with
      pc := s.stack[s.sp.val - 1]'(by omega)
      sp := ⟨s.sp.val - 1, by omega⟩ } := by
  unfold State.pop at h
  split at h
  · rename_i hsp; exact ⟨hsp, (Option.some.inj h).symm⟩
  · cases h

/-! ### Keys and glyphs -/

/-- A key number has a key state exactly when it is at most 15 (R135). -/
theorem State.keyPressed_eq_some {s : State} {k : Byte} {down : Bool} :
    s.keyPressed k = some down ↔ ∃ h : k.toNat < 16, s.keypad[k.toNat] = down := by
  simp only [State.keyPressed, Vector.getElem?_eq_some_iff]

theorem State.keyPressed_eq_none {s : State} {k : Byte} :
    s.keyPressed k = none ↔ 16 ≤ k.toNat := by
  simp [State.keyPressed]

/-- The least pressed key is pressed and no lower key is (R171). -/
theorem State.leastPressedKey_eq_some {s : State} {k : Nat} :
    s.leastPressedKey = some k ↔
      ∃ h : k < 16, s.keypad[k] = true ∧ ∀ j (hj : j < k), s.keypad[j] = false := by
  simp [State.leastPressedKey, List.findIdx?_eq_some_iff_getElem]

/-- There is no least pressed key exactly when no key is pressed. -/
theorem State.leastPressedKey_eq_none {s : State} :
    s.leastPressedKey = none ↔ ∀ j (h : j < 16), s.keypad[j] = false := by
  rw [State.leastPressedKey, List.findIdx?_eq_none_iff]
  constructor
  · intro h j hj; exact h _ (by simp)
  · intro h b hb
    obtain ⟨j, hj, rfl⟩ := Vector.mem_iff_getElem.mp (Vector.mem_toList_iff.mp hb)
    exact h j hj

/-- A glyph's address, for a digit (R162). -/
theorem glyphAddress_eq_some {v : Byte} {a : Word} :
    glyphAddress v = some a ↔ v.toNat ≤ 15 ∧ BitVec.ofNat 16 (v.toNat * 5) = a := by
  simp [glyphAddress]

/-! ### The outcomes of an operation that may be out of bounds -/

@[simp] theorem State.orFail_some {α : Type} (s : State) (kind : Word → Word → Fault) (i : Instr)
    (a : α) (next : α → State) : s.orFail kind i (some a) next = .next (next a) := rfl

@[simp] theorem State.orFail_none {α : Type} (s : State) (kind : Word → Word → Fault) (i : Instr)
    (next : α → State) : s.orFail kind i none next = .fault (kind (encode i) s.instrAddr) := rfl

/-- It goes on exactly when the operation gave something. -/
theorem State.orFail_eq_next {α : Type} {s t : State} {kind : Word → Word → Fault} {i : Instr}
    {o : Option α} {next : α → State} :
    s.orFail kind i o next = .next t ↔ ∃ a, o = some a ∧ next a = t := by
  cases o <;> simp [State.orFail, State.fail]

/-- It fails exactly when the operation gave nothing. -/
theorem State.orFail_eq_fault {α : Type} {s : State} {kind : Word → Word → Fault} {i : Instr}
    {o : Option α} {next : α → State} {f : Fault} :
    s.orFail kind i o next = .fault f ↔ o = none ∧ f = kind (encode i) s.instrAddr := by
  cases o <;> simp [State.orFail, State.fail, eq_comm]

/-- It never refuses. -/
theorem State.orFail_ne_refused {α : Type} {s : State} {kind : Word → Word → Fault} {i : Instr}
    {o : Option α} {next : α → State} {r : Refusal} : s.orFail kind i o next ≠ .refused r := by
  cases o <;> simp [State.orFail, State.fail]

/-! ### Fetch and countdown -/

theorem State.fetch_of_in (s : State) (h : s.pc.toNat + 1 ≤ 0xFFF) :
    s.fetch = some (wordOfBytes (s.memory.read s.pc.toNat) (s.memory.read (s.pc.toNat + 1))) := by
  simp only [State.fetch, if_pos h]

/-- A fetch that succeeds lies inside memory. -/
theorem State.fetch_eq_some {s : State} {op : Word} (h : s.fetch = some op) :
    s.pc.toNat + 1 ≤ 0xFFF ∧
      op = wordOfBytes (s.memory.read s.pc.toNat) (s.memory.read (s.pc.toNat + 1)) := by
  unfold State.fetch at h
  split at h
  · rename_i hp; exact ⟨hp, (Option.some.inj h).symm⟩
  · cases h

theorem State.fetch_of_out (s : State) (h : ¬ s.pc.toNat + 1 ≤ 0xFFF) : s.fetch = none := by
  simp only [State.fetch, if_neg h]

/-- The countdown of a timer is truncated subtraction of 1 (R195). -/
theorem countDown_toNat (t : Byte) : (countDown t).toNat = t.toNat - 1 := by
  unfold countDown
  split
  · rename_i h; simp [h]
  · rename_i h
    have : t.toNat ≠ 0 := fun h0 => h (BitVec.eq_of_toNat_eq (by simpa using h0))
    have := t.isLt
    simp [BitVec.toNat_sub]
    omega

end Sys2Proof.Machine
end

