-- ==== Sys2Proof/Laws/Exec.lean ====
section
/-! SUPPORT. What a step and an instruction can do, said once: the ways an execute phase goes on or
fails, which duty a failing instruction broke, and that no instruction is refused
(spec/40_cycle_engine.md R90, spec/60_exceptions.md R181, spec/70_reset_and_hazards.md R214). -/

namespace Sys2Proof.Machine

/-- A step that completes is the execute phase followed by the countdown. -/
theorem step_eq_next {s t : State} :
    step s = .next t ↔ ∃ u, executePhase s = .next u ∧ t = u.tick := by
  unfold step tickPhase
  cases executePhase s <;> simp [eq_comm]

/-- A step fails exactly when its execute phase does. -/
theorem step_eq_fault {s : State} {f : Fault} : step s = .fault f ↔ executePhase s = .fault f := by
  unfold step tickPhase
  cases executePhase s <;> simp

/-- The execute phase of a fetched instruction. -/
theorem executePhase_of_decode {s : State} {op : Word} {i : Instr} (hf : s.fetch = some op)
    (hd : decodeWord op = some i) : executePhase s = exec i s.advance := by
  simp only [executePhase, hf, decodeAndExecute, hd]

/-- All the ways an execute phase can go on: an instruction was fetched, decoded and executed. -/
theorem executePhase_eq_next {s u : State} (h : executePhase s = .next u) :
    ∃ op i, s.fetch = some op ∧ decodeWord op = some i ∧ exec i s.advance = .next u := by
  unfold executePhase decodeAndExecute at h
  split at h
  · rename_i op hf
    split at h
    · rename_i i hd
      exact ⟨op, i, hf, hd, h⟩
    · cases h
  · cases h

/-- All the ways an execute phase can fail. -/
theorem executePhase_eq_fault {s : State} {f : Fault} (h : executePhase s = .fault f) :
    (s.fetch = none ∧ f = .fetchOutOfRange s.pc) ∨
    (∃ op, s.fetch = some op ∧ decodeWord op = none ∧ f = .unknownOpcode op s.pc) ∨
    (∃ op i, s.fetch = some op ∧ decodeWord op = some i ∧ exec i s.advance = .fault f) := by
  unfold executePhase decodeAndExecute at h
  split at h
  · rename_i op hf
    split at h
    · rename_i i hd
      exact .inr (.inr ⟨op, i, hf, hd, h⟩)
    · rename_i hd
      cases h
      exact .inr (.inl ⟨op, hf, hd, rfl⟩)
  · rename_i hf
    cases h
    exact .inl ⟨hf, rfl⟩

/-- The failure kind of each instruction that has a duty (R181); the others never fail. -/
def failureOf (i : Instr) : Option (Word → Word → Fault) :=
  match i with
  | .ret => some .stackUnderflow
  | .call _ => some .stackOverflow
  | .skp _ | .sknp _ | .ldF _ => some .undefinedOperand
  | .drw _ _ _ | .ldB _ | .storeRegs _ | .loadRegs _ => some .dataOutOfRange
  | .cls | .jp _ | .seImm _ _ | .sneImm _ _ | .seReg _ _ | .ldImm _ _ | .addImm _ _ | .ldReg _ _
  | .orReg _ _ | .andReg _ _ | .xorReg _ _ | .addReg _ _ | .subReg _ _ | .shr _ _ | .subn _ _
  | .shl _ _ | .sneReg _ _ | .ldI _ | .jpV0 _ | .rnd _ _ | .ldVxDt _ | .ldVxK _ | .ldDtVx _
  | .ldStVx _ | .addI _ => none

/-- An instruction fails exactly when its duty is broken, with its own kind, its word and the
address it was fetched from (R181, R188). -/
theorem exec_eq_fault_iff {i : Instr} {s : State} {f : Fault} :
    exec i s = .fault f ↔
      ¬ duty i s ∧ ∃ kind, failureOf i = some kind ∧ f = kind (encode i) s.instrAddr := by
  have hsp := s.sp.isLt
  cases i
  case ldVxK x =>
    simp only [exec, execLdVxK, duty, not_true_eq_false, false_and, iff_false]
    split <;> exact fun h => by cases h
  case ret =>
    simp [exec, execRet, State.orFail_eq_fault, duty, failureOf, State.pop]
  case call nnn =>
    simp [exec, execCall, State.orFail_eq_fault, duty, failureOf, State.push]
  case drw x y n =>
    simp [exec, execDrw, State.orFail_eq_fault, duty, failureOf, State.readBlock, inMemory]
  case skp x =>
    simp only [exec, execSkp, State.orFail_eq_fault, State.keyPressed_eq_none, duty, failureOf,
      Option.some.injEq, exists_eq_left', not_le, Nat.succ_le_iff]
  case sknp x =>
    simp only [exec, execSknp, State.orFail_eq_fault, State.keyPressed_eq_none, duty, failureOf,
      Option.some.injEq, exists_eq_left', not_le, Nat.succ_le_iff]
  case ldF x =>
    simp [exec, execLdF, State.orFail_eq_fault, duty, failureOf, glyphAddress]
  case ldB x =>
    simp [exec, execLdB, State.orFail_eq_fault, duty, failureOf, State.writeBlock, inMemory,
      bcdDigits]
  case storeRegs x =>
    simp [exec, execStoreRegs, State.orFail_eq_fault, duty, failureOf, State.writeBlock, inMemory]
  case loadRegs x =>
    rw [show exec (.loadRegs x) s = s.orFail .dataOutOfRange (.loadRegs x)
      (s.readBlock s.index.toNat (x.toNat + 1)) (fun bytes => s.setFirstRegs bytes) from rfl]
    simp [State.orFail_eq_fault, duty, failureOf, State.readBlock, inMemory]
  all_goals
    simp only [duty, not_true_eq_false, false_and, iff_false]
    exact fun h => by cases h

/-- Two uses of one operation at the same pc whose results differ by `g` answer alike up to `g`: the
shape of every statement that an instruction ignores a piece of the state. -/
theorem State.orFail_onNext {α β : Type} {s s' : State} {kind : Word → Word → Fault} {i : Instr}
    {o : Option α} {o' : Option β} {next : α → State} {next' : β → State} {g : State → State}
    (hpc : s'.pc = s.pc) (h : o'.map next' = (o.map next).map g) :
    s'.orFail kind i o' next' = onNext g (s.orFail kind i o next) := by
  cases o <;> cases o' <;> simp_all [State.orFail, State.fail, State.instrAddr, onNext]

/-- No instruction is refused. -/
theorem exec_ne_refused {i : Instr} {s : State} {r : Refusal} : exec i s ≠ .refused r := by
  cases i
  case ldVxK x =>
    simp only [exec, execLdVxK]
    split <;> exact fun h => by cases h
  case ret | call | drw | skp | sknp | ldF | ldB | storeRegs | loadRegs =>
    exact State.orFail_ne_refused
  all_goals exact fun h => by cases h

end Sys2Proof.Machine
end

