-- ==== Sys2Proof/Laws/PerInstr.lean ====
section
/-! SUPPORT. The per-instruction law `Encoding`: the word the encoder writes for an instruction
carries the fixed bits of that instruction's own row of spec/opcode_table.json, whatever its
operands. -/

namespace Sys2Proof.Laws.Encoding

open Sys2Proof

/-- The pattern of an instruction's row in spec/opcode_table.json. -/
def pattern : Instr → String
  | .cls => "00E0"
  | .ret => "00EE"
  | .jp _ => "1NNN"
  | .call _ => "2NNN"
  | .seImm _ _ => "3XNN"
  | .sneImm _ _ => "4XNN"
  | .seReg _ _ => "5XY0"
  | .ldImm _ _ => "6XNN"
  | .addImm _ _ => "7XNN"
  | .ldReg _ _ => "8XY0"
  | .orReg _ _ => "8XY1"
  | .andReg _ _ => "8XY2"
  | .xorReg _ _ => "8XY3"
  | .addReg _ _ => "8XY4"
  | .subReg _ _ => "8XY5"
  | .shr _ _ => "8XY6"
  | .subn _ _ => "8XY7"
  | .shl _ _ => "8XYE"
  | .sneReg _ _ => "9XY0"
  | .ldI _ => "ANNN"
  | .jpV0 _ => "BNNN"
  | .rnd _ _ => "CXNN"
  | .drw _ _ _ => "DXYN"
  | .skp _ => "EX9E"
  | .sknp _ => "EXA1"
  | .ldVxDt _ => "FX07"
  | .ldVxK _ => "FX0A"
  | .ldDtVx _ => "FX15"
  | .ldStVx _ => "FX18"
  | .addI _ => "FX1E"
  | .ldF _ => "FX29"
  | .ldB _ => "FX33"
  | .storeRegs _ => "FX55"
  | .loadRegs _ => "FX65"

/-- The row of that pattern is in the opcode table and covers the encoded word. -/
def Statement (i : Instr) : Prop :=
  ∃ r ∈ opcodeTable, r.pattern = pattern i ∧ r.covers (encode i) = true

/-- A row covers a word that carries its fixed bits. -/
theorem statement_of {i : Instr} (r : OpcodeRow) (hr : r ∈ opcodeTable)
    (hp : r.pattern = pattern i) (h : encode i &&& r.mask = r.fixed) : Statement i :=
  ⟨r, hr, hp, by simp [OpcodeRow.covers, h]⟩

/-- The fixed bits of the layout `F NNN`. -/
theorem mask_nnn (f : Nibble) (nnn : Addr) : (f ++ nnn) &&& 0xF000#16 = f ++ 0#12 := by
  rw [show (0xF000#16) = 0xF#4 ++ 0x000#12 from rfl, append_and_append]
  congr 1
  · exact BitVec.and_allOnes
  · exact BitVec.and_zero

/-- The fixed bits of the layout `F X NN` with NN free. -/
theorem mask_xnn (f x : Nibble) (nn : Byte) : (f ++ x ++ nn) &&& 0xF000#16 = f ++ 0#4 ++ 0#8 := by
  rw [show (0xF000#16) = 0xF#4 ++ 0x0#4 ++ 0x00#8 from rfl, append_and_append, append_and_append]
  congr 1
  · congr 1
    · exact BitVec.and_allOnes
    · exact BitVec.and_zero
  · exact BitVec.and_zero

/-- The fixed bits of the layout `F X` with a fixed low byte. -/
theorem mask_xb (f x : Nibble) (b : Byte) : (f ++ x ++ b) &&& 0xF0FF#16 = f ++ 0#4 ++ b := by
  rw [show (0xF0FF#16) = 0xF#4 ++ 0x0#4 ++ 0xFF#8 from rfl, append_and_append, append_and_append]
  congr 1
  · congr 1
    · exact BitVec.and_allOnes
    · exact BitVec.and_zero
  · exact BitVec.and_allOnes

/-- The fixed bits of the layout `F X Y N` with N free. -/
theorem mask_xyn (f x y n : Nibble) :
    (f ++ x ++ y ++ n) &&& 0xF000#16 = f ++ 0#4 ++ 0#4 ++ 0#4 := by
  rw [show (0xF000#16) = 0xF#4 ++ 0x0#4 ++ 0x0#4 ++ 0x0#4 from rfl, append_and_append,
    append_and_append, append_and_append]
  congr 1
  · congr 1
    · congr 1
      · exact BitVec.and_allOnes
      · exact BitVec.and_zero
    · exact BitVec.and_zero
  · exact BitVec.and_zero

/-- The fixed bits of the layout `F X Y` with a fixed low nibble. -/
theorem mask_xyb (f x y n : Nibble) :
    (f ++ x ++ y ++ n) &&& 0xF00F#16 = f ++ 0#4 ++ 0#4 ++ n := by
  rw [show (0xF00F#16) = 0xF#4 ++ 0x0#4 ++ 0x0#4 ++ 0xF#4 from rfl, append_and_append,
    append_and_append, append_and_append]
  congr 1
  · congr 1
    · congr 1
      · exact BitVec.and_allOnes
      · exact BitVec.and_zero
    · exact BitVec.and_zero
  · exact BitVec.and_allOnes

theorem cls : Statement .cls :=
  statement_of ⟨"00E0", 0xFFFF, 0x00E0⟩ (by decide) rfl (by decide)

theorem ret : Statement .ret :=
  statement_of ⟨"00EE", 0xFFFF, 0x00EE⟩ (by decide) rfl (by decide)

theorem jp (nnn : Addr) : Statement (.jp nnn) :=
  statement_of ⟨"1NNN", 0xF000, 0x1000⟩ (by decide) rfl (mask_nnn _ _)

theorem call (nnn : Addr) : Statement (.call nnn) :=
  statement_of ⟨"2NNN", 0xF000, 0x2000⟩ (by decide) rfl (mask_nnn _ _)

theorem seImm (x : Nibble) (nn : Byte) : Statement (.seImm x nn) :=
  statement_of ⟨"3XNN", 0xF000, 0x3000⟩ (by decide) rfl (mask_xnn _ _ _)

theorem sneImm (x : Nibble) (nn : Byte) : Statement (.sneImm x nn) :=
  statement_of ⟨"4XNN", 0xF000, 0x4000⟩ (by decide) rfl (mask_xnn _ _ _)

theorem seReg (x y : Nibble) : Statement (.seReg x y) :=
  statement_of ⟨"5XY0", 0xF000, 0x5000⟩ (by decide) rfl (mask_xyn _ _ _ _)

theorem ldImm (x : Nibble) (nn : Byte) : Statement (.ldImm x nn) :=
  statement_of ⟨"6XNN", 0xF000, 0x6000⟩ (by decide) rfl (mask_xnn _ _ _)

theorem addImm (x : Nibble) (nn : Byte) : Statement (.addImm x nn) :=
  statement_of ⟨"7XNN", 0xF000, 0x7000⟩ (by decide) rfl (mask_xnn _ _ _)

theorem ldReg (x y : Nibble) : Statement (.ldReg x y) :=
  statement_of ⟨"8XY0", 0xF00F, 0x8000⟩ (by decide) rfl (mask_xyb _ _ _ _)

theorem orReg (x y : Nibble) : Statement (.orReg x y) :=
  statement_of ⟨"8XY1", 0xF00F, 0x8001⟩ (by decide) rfl (mask_xyb _ _ _ _)

theorem andReg (x y : Nibble) : Statement (.andReg x y) :=
  statement_of ⟨"8XY2", 0xF00F, 0x8002⟩ (by decide) rfl (mask_xyb _ _ _ _)

theorem xorReg (x y : Nibble) : Statement (.xorReg x y) :=
  statement_of ⟨"8XY3", 0xF00F, 0x8003⟩ (by decide) rfl (mask_xyb _ _ _ _)

theorem addReg (x y : Nibble) : Statement (.addReg x y) :=
  statement_of ⟨"8XY4", 0xF00F, 0x8004⟩ (by decide) rfl (mask_xyb _ _ _ _)

theorem subReg (x y : Nibble) : Statement (.subReg x y) :=
  statement_of ⟨"8XY5", 0xF00F, 0x8005⟩ (by decide) rfl (mask_xyb _ _ _ _)

theorem shr (x y : Nibble) : Statement (.shr x y) :=
  statement_of ⟨"8XY6", 0xF00F, 0x8006⟩ (by decide) rfl (mask_xyb _ _ _ _)

theorem subn (x y : Nibble) : Statement (.subn x y) :=
  statement_of ⟨"8XY7", 0xF00F, 0x8007⟩ (by decide) rfl (mask_xyb _ _ _ _)

theorem shl (x y : Nibble) : Statement (.shl x y) :=
  statement_of ⟨"8XYE", 0xF00F, 0x800E⟩ (by decide) rfl (mask_xyb _ _ _ _)

theorem sneReg (x y : Nibble) : Statement (.sneReg x y) :=
  statement_of ⟨"9XY0", 0xF000, 0x9000⟩ (by decide) rfl (mask_xyn _ _ _ _)

theorem ldI (nnn : Addr) : Statement (.ldI nnn) :=
  statement_of ⟨"ANNN", 0xF000, 0xA000⟩ (by decide) rfl (mask_nnn _ _)

theorem jpV0 (nnn : Addr) : Statement (.jpV0 nnn) :=
  statement_of ⟨"BNNN", 0xF000, 0xB000⟩ (by decide) rfl (mask_nnn _ _)

theorem rnd (x : Nibble) (nn : Byte) : Statement (.rnd x nn) :=
  statement_of ⟨"CXNN", 0xF000, 0xC000⟩ (by decide) rfl (mask_xnn _ _ _)

theorem drw (x y n : Nibble) : Statement (.drw x y n) :=
  statement_of ⟨"DXYN", 0xF000, 0xD000⟩ (by decide) rfl (mask_xyn _ _ _ _)

theorem skp (x : Nibble) : Statement (.skp x) :=
  statement_of ⟨"EX9E", 0xF0FF, 0xE09E⟩ (by decide) rfl (mask_xb _ _ _)

theorem sknp (x : Nibble) : Statement (.sknp x) :=
  statement_of ⟨"EXA1", 0xF0FF, 0xE0A1⟩ (by decide) rfl (mask_xb _ _ _)

theorem ldVxDt (x : Nibble) : Statement (.ldVxDt x) :=
  statement_of ⟨"FX07", 0xF0FF, 0xF007⟩ (by decide) rfl (mask_xb _ _ _)

theorem ldVxK (x : Nibble) : Statement (.ldVxK x) :=
  statement_of ⟨"FX0A", 0xF0FF, 0xF00A⟩ (by decide) rfl (mask_xb _ _ _)

theorem ldDtVx (x : Nibble) : Statement (.ldDtVx x) :=
  statement_of ⟨"FX15", 0xF0FF, 0xF015⟩ (by decide) rfl (mask_xb _ _ _)

theorem ldStVx (x : Nibble) : Statement (.ldStVx x) :=
  statement_of ⟨"FX18", 0xF0FF, 0xF018⟩ (by decide) rfl (mask_xb _ _ _)

theorem addI (x : Nibble) : Statement (.addI x) :=
  statement_of ⟨"FX1E", 0xF0FF, 0xF01E⟩ (by decide) rfl (mask_xb _ _ _)

theorem ldF (x : Nibble) : Statement (.ldF x) :=
  statement_of ⟨"FX29", 0xF0FF, 0xF029⟩ (by decide) rfl (mask_xb _ _ _)

theorem ldB (x : Nibble) : Statement (.ldB x) :=
  statement_of ⟨"FX33", 0xF0FF, 0xF033⟩ (by decide) rfl (mask_xb _ _ _)

theorem storeRegs (x : Nibble) : Statement (.storeRegs x) :=
  statement_of ⟨"FX55", 0xF0FF, 0xF055⟩ (by decide) rfl (mask_xb _ _ _)

theorem loadRegs (x : Nibble) : Statement (.loadRegs x) :=
  statement_of ⟨"FX65", 0xF0FF, 0xF065⟩ (by decide) rfl (mask_xb _ _ _)

end Sys2Proof.Laws.Encoding
end

