-- ==== Sys2Proof/Laws/Sprite.lean ====
section
/-! SUPPORT. What drawing does to one pixel: the pixels a sprite covers are distinct and inside the
framebuffer, and flipping a list of distinct pixels XORs each of them once
(spec/41_display.md R111). -/

namespace Sys2Proof.Machine

theorem pixelIndex_lt (c r : Nat) : pixelIndex c r < 2048 := by
  unfold pixelIndex; omega

theorem pixelIndex_inj {c r c' r' : Nat} :
    pixelIndex c r = pixelIndex c' r' ↔ c % 64 = c' % 64 ∧ r % 32 = r' % 32 := by
  unfold pixelIndex; omega

/-- A flip changes one pixel (R111). -/
theorem Framebuffer.pixel_flip (fb : Framebuffer) (k j : Nat) (hk : k < 2048) :
    (fb.flip k).pixel j = (fb.pixel j ^^ decide (j = k)) := by
  simp only [Framebuffer.flip, Framebuffer.pixel, BitVec.getLsbD_xor, BitVec.getLsbD_twoPow]
  by_cases h : j = k
  · subst h; simp [hk]
  · simp [h, Ne.symm h]

/-- Flipping distinct pixels XORs each of them once. -/
theorem flipPixels_pixel (l : List Nat) (fb : Framebuffer) (hit : Bool) (j : Nat)
    (hl : ∀ k ∈ l, k < 2048) (hd : l.Nodup) :
    (flipPixels l fb hit).1.pixel j = (fb.pixel j ^^ decide (j ∈ l)) := by
  induction l generalizing fb hit with
  | nil => simp [flipPixels]
  | cons k rest ih =>
    obtain ⟨hk, hr⟩ := List.nodup_cons.mp hd
    rw [flipPixels, ih _ _ (fun x hx => hl x (List.mem_cons_of_mem _ hx)) hr,
      Framebuffer.pixel_flip _ _ _ (hl k List.mem_cons_self)]
    by_cases hjk : j = k
    · subst hjk; simp [hk]
    · simp [hjk]

/-- The collision flag: one of the distinct pixels was set before (R111). -/
theorem flipPixels_hit (l : List Nat) (fb : Framebuffer) (hit : Bool)
    (hl : ∀ k ∈ l, k < 2048) (hd : l.Nodup) :
    (flipPixels l fb hit).2 = (hit || l.any (fun k => fb.pixel k)) := by
  induction l generalizing fb hit with
  | nil => simp [flipPixels]
  | cons k rest ih =>
    obtain ⟨hk, hr⟩ := List.nodup_cons.mp hd
    rw [flipPixels, ih _ _ (fun x hx => hl x (List.mem_cons_of_mem _ hx)) hr, List.any_cons,
      Bool.or_assoc]
    congr 2
    rw [Bool.eq_iff_iff, List.any_eq_true, List.any_eq_true]
    refine exists_congr fun x => and_congr_right fun hx => ?_
    rw [Framebuffer.pixel_flip _ _ _ (hl k List.mem_cons_self)]
    simp [show x ≠ k from fun h => hk (h ▸ hx)]

theorem mem_rowPixels {b : Byte} {c r k : Nat} :
    k ∈ rowPixels b c r ↔ ∃ j < 8, b.getLsbD (7 - j) = true ∧ pixelIndex (c + j) r = k := by
  simp [rowPixels, and_assoc]

/-- The pixels of a sprite: one for each set bit of each byte. -/
theorem mem_spritePixels {bytes : List Byte} {c r k : Nat} :
    k ∈ spritePixels bytes c r ↔ ∃ (i : Nat) (hi : i < bytes.length), ∃ j < 8,
      bytes[i].getLsbD (7 - j) = true ∧ pixelIndex (c + j) (r + i) = k := by
  induction bytes generalizing r with
  | nil => simp [spritePixels]
  | cons b rest ih =>
    rw [spritePixels, List.mem_append, mem_rowPixels, ih]
    constructor
    · rintro (h | ⟨i, hi, h⟩)
      · exact ⟨0, by simp, h⟩
      · exact ⟨i + 1, by simpa using hi, by simpa [Nat.add_assoc, Nat.add_comm 1] using h⟩
    · rintro ⟨i, hi, h⟩
      cases i with
      | zero => exact .inl h
      | succ i => exact .inr ⟨i, by simpa using hi, by simpa [Nat.add_assoc, Nat.add_comm 1] using h⟩

theorem spritePixels_lt (bytes : List Byte) (c r k : Nat) (h : k ∈ spritePixels bytes c r) :
    k < 2048 := by
  obtain ⟨i, hi, j, hj, -, rfl⟩ := mem_spritePixels.mp h
  exact pixelIndex_lt _ _

theorem rowPixels_nodup (b : Byte) (c r : Nat) : (rowPixels b c r).Nodup := by
  unfold rowPixels
  refine List.Nodup.map_on ?_ (List.Nodup.filter _ List.nodup_range)
  intro j hj k hk h
  have hj := List.mem_range.mp (List.mem_of_mem_filter hj)
  have hk := List.mem_range.mp (List.mem_of_mem_filter hk)
  have := (pixelIndex_inj.mp h).1
  omega

/-- "No two bits of one sprite hit the same pixel" (R111). -/
theorem spritePixels_nodup (bytes : List Byte) (c r : Nat) (h : bytes.length ≤ 32) :
    (spritePixels bytes c r).Nodup := by
  induction bytes generalizing r with
  | nil => simp [spritePixels]
  | cons b rest ih =>
    simp only [List.length_cons] at h
    refine List.Nodup.append (rowPixels_nodup b c r) (ih (r + 1) (by omega)) ?_
    intro k hk hk'
    obtain ⟨j, hj, -, rfl⟩ := mem_rowPixels.mp hk
    obtain ⟨i, hi, j', hj', -, he⟩ := mem_spritePixels.mp hk'
    have := (pixelIndex_inj.mp he).2
    omega

/-- Drawing changes registers only in VF. -/
theorem State.getReg_drawSprite (s : State) (bytes : List Byte) (vx vy : Byte) (r : Nibble) :
    (s.drawSprite bytes vx vy).getReg r =
      if r = 0xF#4 then
        flagByte (flipPixels (spritePixels bytes vx.toNat vy.toNat) s.framebuffer false).2
      else s.getReg r := by
  unfold State.drawSprite
  rw [State.getReg_setFlag]
  rfl

end Sys2Proof.Machine
end

