-- ==== Sys2Proof/Tests/Slice0.lean ====
section
/-! SUPPORT. Tests with expected results from spec/95_test_vectors.md (its vector named in each
docstring) or worked out by hand from the rule named, and the witnesses that the hypotheses of the
obligations can be met. Each test is about one step, or one word. -/

namespace Sys2Proof.Tests

open Sys2Proof Sys2Proof.Machine

-- One after the other: each test waits for the kernel, and every wait would hold a thread.
set_option Elab.async false

/-! ### Helpers -/

/-- The state S0 of the vectors with a word at 0x200 and some registers set. -/
def start (op : Word) (regs : List (Nibble × Byte)) : State :=
  regs.foldl (fun s r => s.setReg r.1 r.2) (State.reset.placeWord op)

/-- The next state of an answer. -/
def nextOf : Result → Option State
  | .next t => some t
  | _ => none

/-- The failure of an answer. -/
def faultOf : Result → Option Fault
  | .fault f => some f
  | _ => none

/-- What one step leaves, seen through `f`. -/
def after {α : Type} (f : State → α) (s : State) : Option α := (nextOf (step s)).map f

/-- A framebuffer with these (column, row) pixels set. -/
def lit (pixels : List (Nat × Nat)) : Framebuffer :=
  pixels.foldl (fun fb p => fb ||| BitVec.twoPow 2048 (p.1 + p.2 * 64)) 0#2048

/-- A keypad with these keys down. -/
def keys (down : List Nat) : Vector Bool 16 := Vector.ofFn (fun k : Fin 16 => down.contains k.val)

/-- Bytes put into memory. -/
def poke (a : Nat) (bytes : List Byte) (s : State) : State :=
  { s with memory := s.memory.writeBytes a bytes }

/-! ### Well-formed words (WellFormed.lean): each check refuses an ill-formed word -/

/-- R75: family 0 on the whole word (0x0123, 0x01E0 and 0x0000 of the vectors). -/
theorem test_wellFormed_family0 :
    legalWord 0x0123 = false ∧ legalWord 0x01E0 = false ∧ legalWord 0x0000 = false := by decide

/-- R77: family 8 on the low nibble. -/
theorem test_wellFormed_family8 : legalWord 0x8128 = false ∧ legalWord 0x812F = false := by decide

/-- R78: family E on the low byte. -/
theorem test_wellFormed_familyE : legalWord 0xE19F = false ∧ legalWord 0xE000 = false := by decide

/-- R79: family F on the low byte. -/
theorem test_wellFormed_familyF : legalWord 0xF000 = false ∧ legalWord 0xFFFF = false := by decide

/-- A word of every other family is well-formed. -/
theorem test_wellFormed_accepts : [0x00E0#16, 0x00EE#16, 0x1ABC#16, 0x5121#16, 0x9AB7#16, 0x812E#16,
    0xE19E#16, 0xF165#16].all legalWord = true := by decide

/-! ### Decoding: words written out from R73 and the instruction files -/

/-- 41_display.md R110, 42_control_flow.md R120 to R123 (CF1, L2 decode table, CF6, CF12). -/
theorem test_decode_control : decodeWord 0x00E0 = some .cls ∧ decodeWord 0x00EE = some .ret ∧
    decodeWord 0x1ABC = some (.jp 0xABC) ∧ decodeWord 0x2210 = some (.call 0x210) ∧
    decodeWord 0xB201 = some (.jpV0 0x201) := by decide

/-- 43_skips.md (SK1, SK3, SK6, decode table, SK9, SK10). -/
theorem test_decode_skips : decodeWord 0x3F01 = some (.seImm 0xF 0x01) ∧
    decodeWord 0x4311 = some (.sneImm 0x3 0x11) ∧ decodeWord 0x5121 = some (.seReg 0x1 0x2) ∧
    decodeWord 0x9AB7 = some (.sneReg 0xA 0xB) ∧ decodeWord 0xE59E = some (.skp 0x5) ∧
    decodeWord 0xE5A1 = some (.sknp 0x5) := by decide

/-- 44_alu.md: the words of AL1 to AL29 with distinct X and Y. -/
theorem test_decode_alu : decodeWord 0x6A7B = some (.ldImm 0xA 0x7B) ∧
    decodeWord 0x70FF = some (.addImm 0x0 0xFF) ∧ decodeWord 0x8120 = some (.ldReg 0x1 0x2) ∧
    decodeWord 0x8121 = some (.orReg 0x1 0x2) ∧ decodeWord 0x8122 = some (.andReg 0x1 0x2) ∧
    decodeWord 0x8123 = some (.xorReg 0x1 0x2) ∧ decodeWord 0x8124 = some (.addReg 0x1 0x2) ∧
    decodeWord 0x8125 = some (.subReg 0x1 0x2) ∧ decodeWord 0x8236 = some (.shr 0x2 0x3) ∧
    decodeWord 0x8127 = some (.subn 0x1 0x2) ∧ decodeWord 0x812E = some (.shl 0x1 0x2) ∧
    decodeWord 0xC30F = some (.rnd 0x3 0x0F) := by decide

/-- 41_display.md R111, 45_index_and_memory.md, 46_timers_and_keywait.md: the words of the
vectors. -/
theorem test_decode_rest : decodeWord 0xD125 = some (.drw 0x1 0x2 0x5) ∧
    decodeWord 0xAFFE = some (.ldI 0xFFE) ∧ decodeWord 0xF107 = some (.ldVxDt 0x1) ∧
    decodeWord 0xF10A = some (.ldVxK 0x1) ∧ decodeWord 0xF015 = some (.ldDtVx 0x0) ∧
    decodeWord 0xF118 = some (.ldStVx 0x1) ∧ decodeWord 0xF11E = some (.addI 0x1) ∧
    decodeWord 0xF129 = some (.ldF 0x1) ∧ decodeWord 0xFA33 = some (.ldB 0xA) ∧
    decodeWord 0xF255 = some (.storeRegs 0x2) ∧ decodeWord 0xF165 = some (.loadRegs 0x1) := by decide

/-- L1-11 and the L2 decode table: words that are no instruction. -/
theorem test_decode_unknown : [0x0123#16, 0x01E0#16, 0x0000#16, 0x8128#16, 0x812F#16, 0xE19F#16,
    0xF000#16, 0xF1FF#16, 0xFFFF#16].all (fun op => decodeWord op == none) = true := by decide

/-- R51, R82: the first byte is the high one, the rest of the stream is left, one byte is too
few. -/
theorem test_decode_bytes :
    decode [0x6A, 0x7B, 0x12] = .ok (.ldImm 0xA 0x7B, [0x12]) ∧
    decode [0x81, 0x28] = .error (.unknownOpcode 0x8128) ∧
    decode [0x6A] = .error .truncated := ⟨rfl, rfl, rfl⟩

/-- The table numbers bit 0 as the least significant of the one word an instruction has. -/
theorem test_decodeTableWord :
    decodeTableWord 16 0xD125 = some (.drw 0x1 0x2 0x5) ∧ decodeTableWord 16 0x0123 = none := by
  decide

/-- A word placed for the fetch is what the next step runs (AL1), at 0x200 and at 0xFFE (FD1). -/
theorem test_withFetchWord :
    after (fun t => (t.getReg 0xA, t.pc)) (State.reset.withFetchWord 16 0x6A7B) =
      some (0x7B, 0x202) ∧
    after (fun t => (t.getReg 0x0, t.pc)) ((State.reset.jump 0xFFE).withFetchWord 16 0x6007) =
      some (0x07, 0x1000) := by decide +kernel

/-! ### The step (vectors FD) -/

/-- FD2, FD3: no fetch past 0xFFF. -/
theorem test_fetch_past_memory :
    faultOf (step (State.reset.jump 0xFFF)) = some (.fetchOutOfRange 0xFFF) ∧
    faultOf (step (State.reset.jump 0x1000)) = some (.fetchOutOfRange 0x1000) := by decide +kernel

/-- FD4: an odd pc is allowed. -/
theorem test_fetch_odd_pc :
    after (fun t => (t.getReg 0x0, t.pc)) ((State.reset.jump 0x201).placeWord 0x6005) =
      some (0x05, 0x203) := by decide +kernel

/-- FD5, FD6: a step that fails counts no timer down and signals nothing. -/
theorem test_failure_keeps_state :
    (hostStep ((start 0x0000 []).setDelay 3)).1.delayTimer = 3 ∧
    (hostStep ((start 0x812F []).setSound 1)).1.soundTimer = 1 ∧
    (hostStep ((start 0x812F []).setSound 1)).2 = ⟨.fail (.unknownOpcode 0x812F 0x200), false⟩ := by
  decide +kernel

/-! ### Display -/

/-- DS1. -/
theorem test_cls :
    after (fun t => (t.framebuffer, t.getReg 0xF, t.pc))
      ((start 0x00E0 [(0xF, 7)]).setFramebuffer (lit [(3, 4), (63, 31)])) =
      some (lit [], 7, 0x202) := by decide +kernel

/-- DS2: the right edge wraps. -/
theorem test_drw_wraps :
    after (fun t => (t.framebuffer, t.getReg 0xF))
      (poke 0x300 [0xFF] ((start 0xD011 [(0, 62), (1, 0)]).setIndex 0x300)) =
      some (lit [(62, 0), (63, 0), (0, 0), (1, 0), (2, 0), (3, 0), (4, 0), (5, 0)], 0) := by
  decide +kernel

/-- DS4 with the coordinates of DS7: XOR, collision, and VF as a coordinate read before it is the
flag. -/
theorem test_drw_collides :
    after (fun t => (t.framebuffer, t.getReg 0xF))
      (poke 0x300 [0xC0]
        (((start 0xDF01 [(0xF, 3)]).setFramebuffer (lit [(3, 0)])).setIndex 0x300)) =
      some (lit [(4, 0)], 1) := by decide +kernel

/-! ### Control transfer -/

/-- CF1. -/
theorem test_ret :
    after (fun t => (t.pc, t.sp, t.stack[0]))
      { start 0x00EE [] with stack := (Vector.replicate 16 0#16).set 0 0x206#16, sp := 1 } =
      some (0x206, 0, 0x206) := by decide +kernel

/-- CF2. -/
theorem test_ret_underflow :
    faultOf (step (start 0x00EE [])) = some (.stackUnderflow 0x00EE 0x200) := by decide +kernel

/-- CF4. -/
theorem test_jp : after (fun t => t.pc) (start 0x1FFF []) = some 0xFFF := by decide +kernel

/-- CF7. -/
theorem test_call :
    after (fun t => (t.stack[15], t.sp, t.pc)) { start 0x2300 [] with sp := 15 } =
      some (0x202, 16, 0x300) := by decide +kernel

/-- CF8. -/
theorem test_call_overflow :
    faultOf (step { start 0x2300 [] with sp := 16 }) = some (.stackOverflow 0x2300 0x200) := by
  decide +kernel

/-- CF11. -/
theorem test_jpV0 : after (fun t => t.pc) (start 0xBFFF [(0, 0xFF)]) = some 0x10FE := by
  decide +kernel

/-- CF12: the register is V0 although bits 11:8 are 2. -/
theorem test_jpV0_ignores_x :
    after (fun t => t.pc) (start 0xB201 [(0, 1), (2, 9)]) = some 0x202 := by decide +kernel

/-! ### Skips -/

/-- SK14. -/
theorem test_seImm : after (fun t => t.pc) (start 0x3F01 [(0xF, 1)]) = some 0x204 := by
  decide +kernel

/-- SK4. -/
theorem test_sneImm : after (fun t => t.pc) (start 0x4311 [(3, 0x11)]) = some 0x202 := by
  decide +kernel

/-- SK6. -/
theorem test_seReg : after (fun t => t.pc) (start 0x5121 [(1, 0x7F), (2, 0x7F)]) = some 0x204 := by
  decide +kernel

/-- SK7. -/
theorem test_sneReg : after (fun t => t.pc) (start 0x9120 [(1, 1), (2, 2)]) = some 0x204 := by
  decide +kernel

/-- SK9. -/
theorem test_skp :
    after (fun t => t.pc) (writeKeypad (keys [3]) (start 0xE59E [(5, 3)])) = some 0x204 := by
  decide +kernel

/-- SK11. -/
theorem test_skp_undefined :
    faultOf (step (start 0xE59E [(5, 0x10)])) = some (.undefinedOperand 0xE59E 0x200) := by
  decide +kernel

/-- SK10. -/
theorem test_sknp : after (fun t => t.pc) (start 0xE5A1 [(5, 3)]) = some 0x204 := by decide +kernel

/-- SK12. -/
theorem test_sknp_undefined :
    faultOf (step (start 0xE5A1 [(5, 0x10)])) = some (.undefinedOperand 0xE5A1 0x200) := by
  decide +kernel

/-! ### ALU -/

/-- AL1. -/
theorem test_ldImm : after (fun t => t.getReg 0xA) (start 0x6A7B []) = some 0x7B := by
  decide +kernel

/-- AL2, with VF = 5 to see that it stays (R141). -/
theorem test_addImm :
    after (fun t => (t.getReg 0, t.getReg 0xF)) (start 0x7001 [(0, 0xFF), (0xF, 5)]) =
      some (0x00, 5) := by decide +kernel

/-- AL5. -/
theorem test_ldReg : after (fun t => t.getReg 0) (start 0x8010 [(1, 0x3C)]) = some 0x3C := by
  decide +kernel

/-- AL6. -/
theorem test_orReg :
    after (fun t => (t.getReg 0, t.getReg 0xF)) (start 0x8011 [(0, 0xF0), (1, 0x0F), (0xF, 1)]) =
      some (0xFF, 1) := by decide +kernel

/-- AL7. -/
theorem test_andReg :
    after (fun t => (t.getReg 0, t.getReg 0xF)) (start 0x8012 [(0, 0xF0), (1, 0x3C), (0xF, 1)]) =
      some (0x30, 1) := by decide +kernel

/-- AL8. -/
theorem test_xorReg :
    after (fun t => (t.getReg 0, t.getReg 0xF)) (start 0x8013 [(0, 0xF0), (1, 0x3C), (0xF, 1)]) =
      some (0xCC, 1) := by decide +kernel

/-- AL13: the flag is written last. -/
theorem test_addReg_flag_last :
    after (fun t => t.getReg 0xF) (start 0x8F14 [(0xF, 0x10), (1, 0xF5)]) = some 1 := by
  decide +kernel

/-- AL14: both operands are read first. -/
theorem test_addReg_reads_first :
    after (fun t => (t.getReg 0, t.getReg 0xF)) (start 0x80F4 [(0, 1), (0xF, 1)]) =
      some (0x02, 0) := by decide +kernel

/-- AL15. -/
theorem test_subReg_borrow :
    after (fun t => (t.getReg 0, t.getReg 0xF)) (start 0x8015 [(0, 0x10), (1, 0x20), (0xF, 9)]) =
      some (0xF0, 0) := by decide +kernel

/-- AL16: equal operands borrow nothing. -/
theorem test_subReg_equal :
    after (fun t => (t.getReg 0, t.getReg 0xF)) (start 0x8005 [(0, 0x33)]) = some (0x00, 1) := by
  decide +kernel

/-- AL20: Vy is not read. -/
theorem test_shr :
    after (fun t => (t.getReg 2, t.getReg 3, t.getReg 0xF))
      (start 0x8236 [(2, 0x80), (3, 0xFF), (0xF, 9)]) = some (0x40, 0xFF, 0) := by decide +kernel

/-- AL21. -/
theorem test_shr_flag_last : after (fun t => t.getReg 0xF) (start 0x8F06 [(0xF, 2)]) = some 0 := by
  decide +kernel

/-- AL22. -/
theorem test_subn :
    after (fun t => (t.getReg 0, t.getReg 1, t.getReg 0xF)) (start 0x8017 [(0, 0x10), (1, 0x30)]) =
      some (0x20, 0x30, 1) := by decide +kernel

/-- AL23. -/
theorem test_subn_borrow :
    after (fun t => (t.getReg 0, t.getReg 0xF)) (start 0x8017 [(0, 1), (0xF, 9)]) =
      some (0xFF, 0) := by decide +kernel

/-- AL24. -/
theorem test_shl :
    after (fun t => (t.getReg 2, t.getReg 0xF)) (start 0x820E [(2, 0x81)]) = some (0x02, 1) := by
  decide +kernel

/-- AL25. -/
theorem test_shl_no_carry :
    after (fun t => (t.getReg 2, t.getReg 0xF)) (start 0x820E [(2, 0x7F), (0xF, 9)]) =
      some (0xFE, 0) := by decide +kernel

/-- AL27 and AL28, for the byte 0xA7 of the source (a free value in a step, log entry 1). -/
theorem test_rnd_masks :
    (rndWith 0xA7 3 0x0F State.reset).getReg 3 = 0x07 ∧
    (rndWith 0xA7 3 0x00 State.reset).getReg 3 = 0x00 := by decide +kernel

/-- R154 as a step: one byte of the source is consumed (R98), and pc goes on. -/
theorem test_rnd_step :
    after (fun t => (t.draws, t.pc)) (start 0xC300 [(3, 9)]) = some (1, 0x202) := by decide +kernel

/-! ### Index and memory -/

/-- IM2. -/
theorem test_ldI :
    after (fun t => t.index) ((start 0xA300 []).setIndex 0x1234) = some 0x0300 := by decide +kernel

/-- IM5, and no flag. -/
theorem test_addI_wraps :
    after (fun t => (t.index, t.getReg 0xF)) ((start 0xF01E [(0, 1), (0xF, 7)]).setIndex 0xFFFF) =
      some (0x0000, 7) := by decide +kernel

/-- IM8. -/
theorem test_ldF : after (fun t => t.index) (start 0xF129 [(1, 0x0F)]) = some 0x04B := by
  decide +kernel

/-- IM10. -/
theorem test_ldF_undefined :
    faultOf (step (start 0xF129 [(1, 0x10)])) = some (.undefinedOperand 0xF129 0x200) := by
  decide +kernel

/-- IM12: the last address. -/
theorem test_ldB :
    after (fun t => (t.memory.readBytes 0xFFD 3, t.index))
      ((start 0xF033 [(0, 0xFF)]).setIndex 0xFFD) = some ([2, 5, 5], 0xFFD) := by decide +kernel

/-- IM13. -/
theorem test_ldB_out_of_range :
    faultOf (step ((start 0xF033 []).setIndex 0xFFE)) = some (.dataOutOfRange 0xF033 0x200) := by
  decide +kernel

/-- IM14. -/
theorem test_storeRegs :
    after (fun t => (t.memory.readBytes 0x400 3, t.index))
      ((start 0xF155 [(0, 1), (1, 2), (2, 3)]).setIndex 0x400) = some ([1, 2, 0], 0x400) := by
  decide +kernel

/-- IM21: the font is not protected. -/
theorem test_storeRegs_font :
    after (fun t => t.memory.readBytes 0x000 2) (start 0xF055 [(0, 0xAA)]) =
      some [0xAA, 0x90] := by decide +kernel

/-- IM18. -/
theorem test_loadRegs :
    after (fun t => (t.getReg 0, t.getReg 1, t.getReg 2, t.getReg 3, t.index))
      (poke 0x300 [1, 2, 3, 4] ((start 0xF265 [(3, 0x44)]).setIndex 0x300)) =
      some (1, 2, 3, 0x44, 0x300) := by decide +kernel

/-- IM20. -/
theorem test_loadRegs_out_of_range :
    faultOf (step ((start 0xFF65 []).setIndex 0xFF1)) = some (.dataOutOfRange 0xFF65 0x200) := by
  decide +kernel

/-! ### Timers and key wait -/

/-- TK1. -/
theorem test_ldVxDt :
    after (fun t => (t.getReg 1, t.delayTimer)) ((start 0xF107 []).setDelay 2) = some (2, 1) := by
  decide +kernel

/-- TK12. -/
theorem test_ldVxK :
    after (fun t => (t.getReg 2, t.pc)) (writeKeypad (keys [3, 7]) (start 0xF20A [])) =
      some (3, 0x202) := by decide +kernel

/-- TK14, with DT as in TK11: a waiting step counts down. -/
theorem test_ldVxK_waits :
    after (fun t => (t.getReg 2, t.pc, t.delayTimer, t.soundTimer))
      (((start 0xF20A [(2, 9)]).setDelay 5).setSound 1) = some (9, 0x200, 4, 0) ∧
    (hostStep ((start 0xF20A []).setSound 1)).2 = ⟨.ok, true⟩ := by decide +kernel

/-- TK3, and TK5. -/
theorem test_ldDtVx :
    after (fun t => t.delayTimer) (start 0xF015 [(0, 5)]) = some 4 ∧
    after (fun t => t.delayTimer) ((start 0xF015 []).setDelay 9) = some 0 := by decide +kernel

/-- TK7. -/
theorem test_ldStVx_expires :
    (hostStep (start 0xF118 [(1, 1)])).1.soundTimer = 0 ∧
    (hostStep (start 0xF118 [(1, 1)])).2 = ⟨.ok, true⟩ := by decide +kernel

/-- TK8. -/
theorem test_ldStVx_zero :
    (hostStep ((start 0xF118 []).setSound 1)).1.soundTimer = 0 ∧
    (hostStep ((start 0xF118 []).setSound 1)).2 = ⟨.ok, false⟩ := by decide +kernel

/-! ### The host's operations -/

/-- LD5: the font and the cleared memory, and pc. -/
theorem test_powerOn :
    (powerOn font (poke 0x300 [1] State.reset)).memory.readBytes 0x000 5 =
      [0xF0, 0x90, 0x90, 0x90, 0xF0] ∧
    (powerOn font State.reset).memory.readBytes 0x04B 6 = [0xF0, 0x80, 0xF0, 0x80, 0x80, 0x00] ∧
    powerOn font (poke 0x300 [1] (State.reset.jump 0x20A)) = State.reset := by decide +kernel

/-- LD6: pc stays. -/
theorem test_load :
    (match load maxImageLen [0x12, 0x00] (State.reset.jump 0x20A) with
      | .ok t => some (t.memory.readBytes 0x200 2, t.pc)
      | .error _ => none) = some ([0x12, 0x00], 0x20A) := by decide +kernel

/-- LD2: one byte more than the reference bound. -/
theorem test_load_too_large (s : State) :
    load maxImageLen (List.replicate 0xCA0 0x00) s = .error .imageTooLarge := by
  rw [load, if_neg (by rw [List.length_replicate]; decide)]

/-- LD1, LD4: the longest images. -/
theorem test_load_longest (s : State) :
    (∃ t, load maxImageLen (List.replicate 0xC9F 0xAB) s = .ok t) ∧
    ∃ t, load 0xE00 (List.replicate 0xE00 0xAB) s = .ok t := by
  constructor <;> exact ⟨_, if_pos (by rw [List.length_replicate]; decide)⟩

/-! ### Witnesses: states and operands that meet the hypotheses of each obligation, every clause at
a boundary of its range -/

/-- EncodeOfDecode: a word of family 5 with a low nibble, and one of another family. -/
theorem witness_EncodeOfDecode :
    (∃ i, decodeWord 0x5121 = some i ∧ fieldF 0x5121 = 0x5#4) ∧
    (∃ i, decodeWord 0x9AB7 = some i ∧ fieldF 0x9AB7 = 0x9#4) ∧
    ∃ i, decodeWord 0x812E = some i ∧ ¬ (fieldF 0x812E = 0x5#4 ∨ fieldF 0x812E = 0x9#4) :=
  ⟨⟨_, rfl, by decide⟩, ⟨_, rfl, by decide⟩, ⟨_, rfl, by decide⟩⟩

/-- SubDispatchedFamilies: an undefined word fetched in each of the families 8, E and F. -/
theorem witness_SubDispatchedFamilies :
    [0x8128#16, 0xE19F#16, 0xF000#16].all (fun op => (start op []).fetch == some op &&
      [0x8#4, 0xE#4, 0xF#4].contains (fieldF op) && decodeWord op == none) = true := by
  decide +kernel

/-- IllegalWordsFailTheStep: an illegal word fetched in each of its four families. -/
theorem witness_IllegalWordsFailTheStep :
    ((start 0x0123 []).fetch = some 0x0123 ∧ IllegalWord 0x0123) ∧
    ((start 0x8128 []).fetch = some 0x8128 ∧ IllegalWord 0x8128) ∧
    ((start 0xE19F []).fetch = some 0xE19F ∧ IllegalWord 0xE19F) ∧
    ((start 0xF000 []).fetch = some 0xF000 ∧ IllegalWord 0xF000) := by
  unfold IllegalWord
  refine ⟨⟨?_, ?_⟩, ⟨?_, ?_⟩, ⟨?_, ?_⟩, ⟨?_, ?_⟩⟩ <;> decide +kernel

/-- ResetState: the ends of its ranges of addresses and pixels. -/
theorem witness_ResetState :
    (∃ a, a < 80 ∧ a = 79) ∧ (∃ a, 80 ≤ a ∧ a ≤ 0xFFF ∧ a = 80) ∧
    (∃ a, 80 ≤ a ∧ a ≤ 0xFFF ∧ a = 0xFFF) ∧ ∃ k, k < 2048 ∧ k = 2047 := by
  refine ⟨⟨79, ?_⟩, ⟨80, ?_⟩, ⟨0xFFF, ?_⟩, ⟨2047, ?_⟩⟩ <;> decide

/-- InitializeInstallsFont: the ends of its ranges of addresses, and a piece that is neither a
memory byte nor the model's own field. -/
theorem witness_InitializeInstallsFont :
    (∃ a, a < 80 ∧ a = 79) ∧ (∃ a, 80 ≤ a ∧ a ≤ 0xFFF ∧ a = 80) ∧
    ∃ p : Piece, (∀ a, p ≠ .cell a) ∧ p ≠ .draws :=
  ⟨⟨79, by decide⟩, ⟨80, by decide⟩, ⟨.pc, by simp, by decide⟩⟩

/-- LoadCopiesImage: an image as long as the bound, the empty image, and one byte too many. -/
theorem witness_LoadCopiesImage :
    ([0x12#8, 0x00#8].length ≤ (2 : Fin 0xE01).val ∧ ∃ k, k < [0x12#8, 0x00#8].length) ∧
    ([] : List Byte).length ≤ (0 : Fin 0xE01).val ∧
    (2 : Fin 0xE01).val < [0x12#8, 0x00#8, 0x00#8].length := by
  refine ⟨⟨by decide, 1, by decide⟩, by decide, by decide⟩

/-- StepRunsDecodedInstruction: an instruction at the last place a fetch reaches that answers a next
state, and one that fails. -/
theorem witness_StepRunsDecodedInstruction :
    (∃ (s : State) (i : Instr) (t : State), s.pc.toNat + 1 ≤ 0xFFF ∧
      decodeWord (s.memory.read s.pc.toNat ++ s.memory.read (s.pc.toNat + 1)) = some i ∧
      exec i { s with pc := s.pc + 2#16 } = .next t) ∧
    ∃ (s : State) (i : Instr) (f : Fault), s.pc.toNat + 1 ≤ 0xFFF ∧
      decodeWord (s.memory.read s.pc.toNat ++ s.memory.read (s.pc.toNat + 1)) = some i ∧
      exec i { s with pc := s.pc + 2#16 } = .fault f :=
  ⟨⟨(State.reset.jump 0xFFE).placeWord 0x6007, .ldImm 0 7, _, by decide, by decide +kernel, rfl⟩,
    ⟨start 0x00EE [], .ret, _, by decide, by decide +kernel, rfl⟩⟩

/-- FetchPastMemoryFails: the last pc that fetches and the first that does not. -/
theorem witness_FetchPastMemoryFails :
    0xFFF ≤ (State.reset.jump 0xFFF).pc.toNat ∧ (State.reset.jump 0xFFE).pc.toNat < 0xFFF := by
  decide

/-- TimersCountDownAfterEveryStep and TimerAccess: an instruction that completes with ST at 1, and
one with both timers at 0. -/
theorem witness_TimersCountDownAfterEveryStep :
    (∃ u, executePhase ((start 0x6000 []).setSound 1) = .next u ∧ u.soundTimer = 1#8) ∧
    ∃ u, executePhase (start 0x6000 []) = .next u ∧ u.soundTimer = 0#8 ∧ u.delayTimer = 0#8 :=
  ⟨⟨_, rfl, rfl⟩, ⟨_, rfl, rfl, rfl⟩⟩

/-- FailureRecordsFetchedWord, FailingStepChangesNothing and FailureIsStable: a step that fails
after its fetch and one that fails in it. -/
theorem witness_failing_step :
    (∃ f, step (start 0x0000 []) = .fault f) ∧ ∃ f, step (State.reset.jump 0xFFF) = .fault f :=
  ⟨⟨_, rfl⟩, ⟨_, rfl⟩⟩

/-- PcAfterStep: a skip taken, and a wait for a key. -/
theorem witness_PcAfterStep :
    (∃ t, (start 0x3000 []).fetch = some 0x3000 ∧ decodeWord 0x3000 = some (.seImm 0 0) ∧
      step (start 0x3000 []) = .next t) ∧
    ∃ t, (start 0xF20A []).fetch = some 0xF20A ∧ decodeWord 0xF20A = some (.ldVxK 2) ∧
      step (start 0xF20A []) = .next t :=
  ⟨⟨_, by decide +kernel, by decide, rfl⟩, ⟨_, by decide +kernel, by decide, rfl⟩⟩

/-- StepKeepsInvariant: a state that meets the invariant, with a call as its next step. -/
theorem witness_StepKeepsInvariant :
    (start 0x2300 []).Inv ∧ ∃ t, step (start 0x2300 []) = .next t :=
  ⟨⟨by decide +kernel, by decide, by decide⟩, ⟨_, rfl⟩⟩

/-- CanonicalMemoryIsUnique: a canonical memory, which reads like itself. -/
theorem witness_CanonicalMemoryIsUnique :
    ∃ m n : Memory, m.wf = true ∧ n.wf = true ∧ ∀ a, m.read a = n.read a :=
  ⟨[(0x200, 1)], [(0x200, 1)], by decide, by decide, fun _ => rfl⟩

/-- RegisterWriters and RegisterReaders: `8014` completes, does not write V1 and does not read
V2. -/
theorem witness_RegisterWriters_RegisterReaders :
    (∃ t, exec (.addReg 0 1) (start 0x8014 []) = .next t) ∧ ¬ mayWrite (.addReg 0 1) 1 ∧
    ¬ readsReg (.addReg 0 1) 2 :=
  ⟨⟨_, rfl⟩, by unfold mayWrite; decide, by unfold readsReg; decide⟩

/-- MemoryTraffic: a store that completes and an address it does not store to; another memory with
the same bytes where a load reads, and where the fetch reads. -/
theorem witness_MemoryTraffic :
    ((∃ t, exec (.storeRegs 1) (start 0xF155 []) = .next t) ∧
      ¬ writesCell (.storeRegs 1) (start 0xF155 []) 2) ∧
    (∃ m : Memory, m ≠ State.reset.memory ∧
      ∀ a, readsCell (.loadRegs 1) State.reset a → m.read a = State.reset.memory.read a) ∧
    ∃ m : Memory, m ≠ State.reset.memory ∧
      m.read State.reset.pc.toNat = State.reset.memory.read State.reset.pc.toNat ∧
      m.read (State.reset.pc.toNat + 1) = State.reset.memory.read (State.reset.pc.toNat + 1) := by
  refine ⟨⟨⟨_, rfl⟩, by unfold writesCell; decide⟩, ⟨[(0x300, 1)], by decide, fun a h => ?_⟩,
    ⟨[(0x300, 1)], by decide, by decide, by decide⟩⟩
  have ha : a ≤ 1 := by unfold readsCell at h; simpa [State.reset] using h
  have : 0x300 ≠ a := by omega
  simp [Memory.read, this, State.reset]

/-- KeypadIsReadOnly, FramebufferAccess, TimerAccess, StackDiscipline and RandomnessOnlyInRnd: an
instruction that is none of the exceptions they name, and completes. -/
theorem witness_resource_access :
    ∃ (i : Instr) (t : State), exec i State.reset = .next t ∧
      (∀ x, i ≠ .skp x) ∧ (∀ x, i ≠ .sknp x) ∧ (∀ x, i ≠ .ldVxK x) ∧
      i ≠ .cls ∧ (∀ x y n, i ≠ .drw x y n) ∧
      (∀ x, i ≠ .ldVxDt x) ∧ (∀ x, i ≠ .ldDtVx x) ∧ (∀ x, i ≠ .ldStVx x) ∧
      i ≠ .ret ∧ (∀ nnn, i ≠ .call nnn) ∧ (∀ x nn, i ≠ .rnd x nn) := by
  refine ⟨.ldImm 0 1, _, rfl, ?_⟩
  simp

/-- FramebufferAccess and ClearDisplay: the last column, row and pixel. -/
theorem witness_FramebufferAccess : ∃ c r k, c < 64 ∧ r < 32 ∧ k < 2048 ∧ c + r * 64 = k ∧
    c = 63 ∧ r = 31 ∧ k = 2047 := ⟨63, 31, 2047, by decide⟩

/-- StackDiscipline, ReturnFromSubroutine, CallSubroutine and CallThenReturn: one free slot left and
none, one entry and none. -/
theorem witness_StackDiscipline :
    ({ State.reset with sp := 15 } : State).sp.val < 16 ∧
    ({ State.reset with sp := 16 } : State).sp.val = 16 ∧
    0 < ({ State.reset with sp := 1 } : State).sp.val ∧ State.reset.sp.val = 0 := by decide

/-- DrawSprite: no byte at any I, a sprite that ends at 0xFFF, and one that ends past it; a pixel
that collides. -/
theorem witness_DrawSprite :
    (0#4).toNat = 0 ∧
    ((5#4).toNat ≠ 0 ∧ (State.reset.setIndex 0xFFB).index.toNat + (5#4).toNat - 1 ≤ 0xFFF) ∧
    ((5#4).toNat ≠ 0 ∧ 0xFFF < (State.reset.setIndex 0xFFC).index.toNat + (5#4).toNat - 1) ∧
    (State.reset.setFramebuffer (lit [(0, 0)])).pixelAt 0 0 = true ∧
    spriteCovers State.reset.memory 0 5 0 0 0 0 = true := by decide +kernel

/-- DrawTwiceRestores: a sprite of five bytes at 0xFFB drawn at (V0, V1). -/
theorem witness_DrawTwiceRestores :
    0x0#4 ≠ 0xF#4 ∧ 0x1#4 ≠ 0xF#4 ∧
    ((5#4).toNat = 0 ∨ (State.reset.setIndex 0xFFB).index.toNat + (5#4).toNat - 1 ≤ 0xFFF) := by
  decide

/-- SkipOnKey and PointAtGlyph: the last key or digit, and the first number that is none. -/
theorem witness_SkipOnKey_PointAtGlyph :
    ((start 0xE59E [(5, 15)]).getReg 5).toNat ≤ 15 ∧
    15 < ((start 0xE59E [(5, 16)]).getReg 5).toNat := by decide +kernel

/-- AddWithCarry, SubtractWithNoBorrow, ReverseSubtract and ShiftByOne: X is not 15 in the clause
that says so; sums and comparisons on both sides of their bound. -/
theorem witness_AddWithCarry :
    0xE#4 ≠ 0xF#4 ∧ (0xFF#8).toNat + (0x01#8).toNat > 255 ∧
    ¬ (0xFE#8).toNat + (0x01#8).toNat > 255 ∧ (0x05#8).toNat ≥ (0x05#8).toNat ∧
    ¬ (0x05#8).toNat ≥ (0x06#8).toNat := by decide

/-- StoreDecimalDigits: the last I in range, and the first out of it. -/
theorem witness_StoreDecimalDigits :
    (State.reset.setIndex 0xFFD).index.toNat + 2 ≤ 0xFFF ∧
    0xFFF < (State.reset.setIndex 0xFFE).index.toNat + 2 := by decide

/-- StoreRegisterBlock and LoadRegisterBlock: sixteen registers at the last I in range and the first
out of it; the last register of the block. -/
theorem witness_StoreRegisterBlock :
    (State.reset.setIndex 0xFF0).index.toNat + (0xF#4).toNat ≤ 0xFFF ∧
    0xFFF < (State.reset.setIndex 0xFF1).index.toNat + (0xF#4).toNat ∧
    ∃ r : Nibble, r.toNat ≤ (0xF#4).toNat ∧ r = 0xF#4 := by
  refine ⟨by decide, by decide, 0xF, by decide, rfl⟩

/-- StoreThenLoadRestores: one register at 0xFFF, and registers that differ from the stored ones in
V0 only. -/
theorem witness_StoreThenLoadRestores :
    ∃ (x : Nibble) (s : State) (scratch : Vector Byte 16), s.index.toNat + x.toNat ≤ 0xFFF ∧
      (∀ r : Nibble, x.toNat < r.toNat → scratch[r.toNat]'r.isLt = s.getReg r) ∧
      scratch ≠ s.registers :=
  ⟨0, State.reset.setIndex 0xFFF, (Vector.replicate 16 0#8).set 0 9#8, by decide,
    by decide +kernel, by decide⟩

/-- WaitForKey: the last key alone, two keys at once, and none. -/
theorem witness_WaitForKey :
    ((keys [15])[(15 : Fin 16)] = true ∧ ∀ j : Fin 16, j < 15 → (keys [15])[j] = false) ∧
    ((keys [3, 7])[(3 : Fin 16)] = true ∧ ∀ j : Fin 16, j < 3 → (keys [3, 7])[j] = false) ∧
    ∀ k : Fin 16, State.reset.keypad[k] = false := by decide +kernel

/-- SetSoundTimer: a state whose fetch is `FX18`. -/
theorem witness_SetSoundTimer :
    (start 0xF118 []).fetch = some (0xF#4 ++ 0x1#4 ++ 0x18#8) := by decide +kernel

end Sys2Proof.Tests
end

