-- ==== Sys2Proof/Proofs/StackDiscipline.lean ====
section
/-! PROOFS. The call stack (spec/10_state.md R29): what a push and a pop do, and that every other
instruction commutes with replacing the whole stack, so that it neither reads nor writes it. -/

namespace Sys2Proof.Machine

/-! ### Push and pop -/

/-- `2NNN` with a free slot (R122). -/
theorem exec_call_of_room (nnn : Addr) (s : State) (h : s.sp.val < 16) :
    ∃ t, exec (.call nnn) s = .next t ∧ t.sp.val = s.sp.val + 1 ∧
      t.stack = s.stack.set s.sp.val s.pc h := by
  simp [exec, execCall, State.push_of_room s h]

/-- `2NNN` with no free slot (R183). -/
theorem exec_call_of_full (nnn : Addr) (s : State) (h : s.sp.val = 16) :
    exec (.call nnn) s = .fault (.stackOverflow (0x2#4 ++ nnn) (s.pc - 2#16)) :=
  exec_eq_fault_iff.mpr ⟨by simp [duty, h], _, rfl, rfl⟩

/-- `00EE` with an entry to return to (R120). -/
theorem exec_ret_of_some (s : State) (h : 0 < s.sp.val) :
    ∃ t, exec .ret s = .next t ∧ t.sp.val = s.sp.val - 1 ∧ t.stack = s.stack ∧
      t.pc = s.stack[s.sp.val - 1]'(by have := s.sp.isLt; omega) := by
  simp [exec, execRet, State.pop_of_some s h]

/-- `00EE` with an empty stack (R185). -/
theorem exec_ret_of_empty (s : State) (h : s.sp.val = 0) :
    exec .ret s = .fault (.stackUnderflow 0x00EE#16 (s.pc - 2#16)) :=
  exec_eq_fault_iff.mpr ⟨by simp [duty, h], _, rfl, rfl⟩

/-! ### Replacing the whole call stack -/

/-- The state with another call stack: other slots and another sp. -/
def State.setCallStack (stack : Vector Word 16) (sp : Fin 17) (s : State) : State :=
  { s with stack := stack, sp := sp }

section
variable (stack : Vector Word 16) (sp : Fin 17) (s : State)

@[simp] theorem State.setCallStack_stack : (s.setCallStack stack sp).stack = stack := rfl

@[simp] theorem State.setCallStack_sp : (s.setCallStack stack sp).sp = sp := rfl

theorem State.setCallStack_self : s.setCallStack s.stack s.sp = s := rfl

/-- A skip neither reads nor writes the call stack. -/
theorem State.skipIf_setCallStack (c : Bool) :
    (s.setCallStack stack sp).skipIf c = (s.skipIf c).setCallStack stack sp := by
  cases c <;> rfl

/-- A block write neither reads nor writes the call stack. -/
theorem State.writeBlock_setCallStack (a : Nat) (bytes : List Byte) :
    (s.setCallStack stack sp).writeBlock a bytes =
      (s.writeBlock a bytes).map (State.setCallStack stack sp) := by
  unfold State.writeBlock
  split <;> rfl

end

/-- An instruction that neither calls nor returns does not depend on the call stack: replaced
before the instruction or after it, the answer is the same (R29). -/
theorem exec_setCallStack {i : Instr} (stack : Vector Word 16) (sp : Fin 17) (s : State)
    (hret : i ≠ .ret) (hcall : ∀ nnn, i ≠ .call nnn) :
    exec i (s.setCallStack stack sp) = onNext (State.setCallStack stack sp) (exec i s) := by
  cases i
  case ret => exact absurd rfl hret
  case call nnn => exact absurd rfl (hcall nnn)
  case seImm | sneImm | seReg | sneReg =>
    exact congrArg Host.Outcome.next (State.skipIf_setCallStack stack sp s _)
  case skp | sknp =>
    refine State.orFail_onNext rfl ?_
    rw [Option.map_map]
    exact congrArg (Option.map · _) (funext fun _ => State.skipIf_setCallStack stack sp s _)
  case drw | ldF | loadRegs =>
    refine State.orFail_onNext rfl ?_
    rw [Option.map_map]
    rfl
  case ldB | storeRegs =>
    refine State.orFail_onNext rfl ?_
    rw [Option.map_id]
    exact State.writeBlock_setCallStack stack sp s _ _
  case ldVxK x =>
    have hkey : (s.setCallStack stack sp).leastPressedKey = s.leastPressedKey := rfl
    simp only [exec, execLdVxK, hkey]
    cases s.leastPressedKey <;> rfl
  all_goals rfl

/-- An instruction that does not depend on the call stack does not write it either: replacing the
stack by itself changes nothing before the instruction, so nothing after it. -/
theorem exec_keeps_callStack {i : Instr} {s t : State} (hret : i ≠ .ret)
    (hcall : ∀ nnn, i ≠ .call nnn) (h : exec i s = .next t) : t.stack = s.stack ∧ t.sp = s.sp := by
  have hself := exec_setCallStack s.stack s.sp s hret hcall
  rw [State.setCallStack_self, h] at hself
  have ht : t = t.setCallStack s.stack s.sp := Host.Outcome.next.inj hself
  rw [ht]
  simp

/-- Settles O27: `2NNN` and `00EE` by the two outcomes of a push and of a pop, every other
instruction by commuting with a replacement of the call stack. -/
theorem stackDiscipline : Obligations.StackDiscipline := by
  refine ⟨fun nnn s => ?_, fun s => ?_, fun i s stack sp hret hcall =>
    ⟨exec_setCallStack stack sp s hret hcall, fun t => exec_keeps_callStack hret hcall⟩⟩
  · split
    case isTrue h => exact exec_call_of_room nnn s h
    case isFalse h => exact exec_call_of_full nnn s (by have := s.sp.isLt; omega)
  · split
    case isTrue h => exact exec_ret_of_some s h
    case isFalse h => exact exec_ret_of_empty s (by omega)

end Sys2Proof.Machine
end

