-- ==== Sys2Proof/Proofs/SubDispatch.lean ====
section
/-! PROOFS. The families that decode on their trailing nibble or byte (spec/30_encoding.md R77, R78,
R79), and the step that fetches a word which is no instruction. -/

namespace Sys2Proof

variable (x y n : Nibble) (nn : Byte)

/-- The dispatch on the family leaves a word of family 8 to its sub-dispatch (R74). -/
theorem decodeWord_family8 : decodeWord (0x8#4 ++ x ++ y ++ n) = decodeFamily8 x y n := by
  simp [decodeWord]

/-- The dispatch on the family leaves a word of family E to its sub-dispatch (R74). -/
theorem decodeWord_familyE : decodeWord (0xE#4 ++ x ++ nn) = decodeFamilyE x nn := by
  simp [decodeWord]

/-- The dispatch on the family leaves a word of family F to its sub-dispatch (R74). -/
theorem decodeWord_familyF : decodeWord (0xF#4 ++ x ++ nn) = decodeFamilyF x nn := by
  simp [decodeWord]

end Sys2Proof

namespace Sys2Proof.Machine

/-- The execute phase of a fetched word that is no instruction (R93, R188). -/
theorem executePhase_of_undefined {s : State} {op : Word} (hf : s.fetch = some op)
    (hd : decodeWord op = none) : executePhase s = .fault (.unknownOpcode op s.pc) := by
  simp only [executePhase, hf, decodeAndExecute, hd]

/-- A step that fetches a word which is no instruction fails with `UnknownOpcode`. -/
theorem step_of_undefined {s : State} {op : Word} (hf : s.fetch = some op)
    (hd : decodeWord op = none) : step s = .fault (.unknownOpcode op s.pc) :=
  step_eq_fault.mpr (executePhase_of_undefined hf hd)

/-- Settles O4: each family's sub-dispatch compares the trailing nibble or byte with the listed
numbers, one case for each number and one for all the others. -/
theorem subDispatchedFamilies : Obligations.SubDispatchedFamilies := by
  refine ⟨fun x y n => ?_, fun x nn => ?_, fun x nn => ?_, fun _ _ hf _ => step_of_undefined hf⟩
  · rw [decodeWord_family8]
    split <;> simp_all [decodeFamily8, ← BitVec.toNat_inj]
  · rw [decodeWord_familyE]
    split <;> simp_all [decodeFamilyE, ← BitVec.toNat_inj]
  · rw [decodeWord_familyF]
    split <;> simp_all [decodeFamilyF, ← BitVec.toNat_inj]

end Sys2Proof.Machine
end

