-- ==== Sys2Proof/Proofs/ClearDisplay.lean ====
section
/-! PROOFS. The clear of the display (spec/41_display.md R110): the one word that decodes to it, and
that putting another picture in the framebuffer changes pixels only. -/

namespace Sys2Proof

/-- Only family 0 holds the clear of the display, and there only the word `00E0` (R74, R75): every
other branch of the dispatch and of the sub-dispatches answers another instruction or none. -/
theorem decodeWord_eq_some_cls_iff {op : Word} : decodeWord op = some .cls ↔ op = 0x00E0#16 := by
  have hfamily : op = 0x00E0#16 → fieldF op = 0x0#4 := by
    rintro rfl
    rfl
  simpa [decodeWord, decodeFamily0, decodeFamily8, decodeFamilyE, decodeFamilyF, ite_eq_iff]
    using hfamily

end Sys2Proof

namespace Sys2Proof.Machine

/-- Every pixel of the clear picture is 0. -/
@[simp] theorem Framebuffer.pixel_zero (k : Nat) : Framebuffer.pixel 0#2048 k = false :=
  BitVec.getLsbD_zero

/-- A new picture changes pixels only (R32). -/
theorem changesOnly_setFramebuffer (s : State) (fb : Framebuffer) :
    ChangesOnly (fun p => ∃ k, p = .pixel k) s (s.setFramebuffer fb) := by
  intro p hp
  cases p
  case pixel k => exact absurd ⟨k, rfl⟩ hp
  all_goals rfl

/-- `00E0` completes in every state with the clear picture (R110). -/
theorem exec_cls (s : State) : exec .cls s = .next (s.setFramebuffer 0#2048) := rfl

/-- Settles O29, by the decoding of `00E0` and by the frame of putting the clear picture in the
framebuffer. -/
theorem clearDisplay : Obligations.ClearDisplay :=
  ⟨fun _ => decodeWord_eq_some_cls_iff, fun s =>
    ⟨s.setFramebuffer 0#2048, exec_cls s, fun k _ => Framebuffer.pixel_zero k,
      changesOnly_setFramebuffer s _⟩⟩

end Sys2Proof.Machine
end

