-- ==== Sys2Proof/Proofs/ControlTransfer.lean ====
section
/-! PROOFS. The control transfers (spec/42_control_flow.md R120 to R123): the words that decode to
them, what a jump, a push and a pop leave unchanged, and the sum `BNNN` jumps to. -/

namespace Sys2Proof

/-- Only family 0 holds the return, and there only the word `00EE` (R74, R75): every other branch
of the dispatch and of the sub-dispatches answers another instruction or none. -/
theorem decodeWord_eq_some_ret_iff {op : Word} : decodeWord op = some .ret ↔ op = 0x00EE#16 := by
  have hword : op = 0x00EE#16 → fieldF op = 0x0#4 ∧ op ≠ 0x00E0#16 := by
    rintro rfl
    decide
  rw [← and_iff_right_of_imp hword, and_assoc]
  simp [decodeWord, decodeFamily0, decodeFamily8, decodeFamilyE, decodeFamilyF, ite_eq_iff]

variable (nnn : Addr)

/-- Every word of family 1 is a jump (R121). -/
theorem decodeWord_family1 : decodeWord (0x1#4 ++ nnn) = some (.jp nnn) := by
  simp [decodeWord]

/-- Every word of family 2 is a call (R122). -/
theorem decodeWord_family2 : decodeWord (0x2#4 ++ nnn) = some (.call nnn) := by
  simp [decodeWord]

/-- Every word of family B is a jump by V0 (R123). -/
theorem decodeWord_familyB : decodeWord (0xB#4 ++ nnn) = some (.jpV0 nnn) := by
  simp [decodeWord]

end Sys2Proof

namespace Sys2Proof.Machine

/-! ### Frames -/

/-- What two changes in a row change, either of them changes. -/
theorem ChangesOnly.trans {P Q : Piece → Prop} {s t u : State} (hst : ChangesOnly P s t)
    (htu : ChangesOnly Q t u) : ChangesOnly (fun p => P p ∨ Q p) s u := fun p hp =>
  (htu p fun hq => hp (.inr hq)).trans (hst p fun hP => hp (.inl hP))

/-- A frame may name more pieces than change. -/
theorem ChangesOnly.mono {P Q : Piece → Prop} {s t : State} (h : ChangesOnly P s t)
    (hPQ : ∀ p, P p → Q p) : ChangesOnly Q s t := fun p hp => h p fun hP => hp (hPQ p hP)

/-- A jump changes pc only (R26). -/
theorem changesOnly_jump (s : State) (a : Word) : ChangesOnly (· = .pc) s (s.jump a) := by
  intro p hp
  cases p
  case pc => exact absurd rfl hp
  all_goals rfl

/-- A push changes sp and the slot sp pointed at (R29). -/
theorem changesOnly_push {s t : State} (hroom : s.sp.val < 16) (h : s.push = some t) :
    ChangesOnly (fun p => p = .sp ∨ p = .slot ⟨s.sp.val, hroom⟩) s t := by
  obtain ⟨-, rfl⟩ := State.push_eq_some h
  intro p hp
  cases p
  case sp => exact absurd (.inl rfl) hp
  case slot k =>
    have hk : s.sp.val ≠ k.val := fun hk => hp (.inr (congrArg Piece.slot (Fin.ext hk.symm)))
    exact congrArg BitVec.toNat (Vector.getElem_set_ne hroom k.isLt hk)
  all_goals rfl

/-- A pop changes pc and sp; the slot it read stays (R29, R30). -/
theorem changesOnly_pop {s t : State} (h : s.pop = some t) :
    ChangesOnly (fun p => p = .pc ∨ p = .sp) s t := by
  obtain ⟨-, rfl⟩ := State.pop_eq_some h
  intro p hp
  cases p
  case pc => exact absurd (.inl rfl) hp
  case sp => exact absurd (.inr rfl) hp
  all_goals rfl

/-! ### Targets -/

@[simp] theorem addrToWord_toNat (nnn : Addr) : (addrToWord nnn).toNat = nnn.toNat :=
  BitVec.toNat_setWidth_of_le (by omega)

@[simp] theorem byteToWord_toNat (v : Byte) : (byteToWord v).toNat = v.toNat :=
  BitVec.toNat_setWidth_of_le (by omega)

/-- A byte and a 12-bit address add up to at most 0x10FE: the sum of words does not wrap (R123). -/
theorem byteToWord_add_addrToWord_toNat (v : Byte) (nnn : Addr) :
    (byteToWord v + addrToWord nnn).toNat = v.toNat + nnn.toNat := by
  have hv := v.isLt
  have hnnn := nnn.isLt
  have hsum : (byteToWord v).toNat + (addrToWord nnn).toNat < 2 ^ 16 := by
    rw [byteToWord_toNat, addrToWord_toNat]
    omega
  rw [BitVec.toNat_add_of_lt hsum, byteToWord_toNat, addrToWord_toNat]

/-! ### The four transfers -/

/-- `1NNN` completes in every state (R121). -/
theorem exec_jp (nnn : Addr) (s : State) :
    exec (.jp nnn) s = .next (s.jump (addrToWord nnn)) := rfl

/-- `BNNN` completes in every state (R123). -/
theorem exec_jpV0 (nnn : Addr) (s : State) :
    exec (.jpV0 nnn) s = .next (s.jump (byteToWord (s.getReg 0x0#4) + addrToWord nnn)) := rfl

/-- `2NNN` jumps after its push (R122). -/
theorem exec_call_of_push {s t : State} (nnn : Addr) (h : s.push = some t) :
    exec (.call nnn) s = .next (t.jump (addrToWord nnn)) := by
  simp only [exec, execCall, h, State.orFail_some]

/-- `00EE` is its pop (R120). -/
theorem exec_ret_of_pop {s t : State} (h : s.pop = some t) : exec .ret s = .next t := by
  simp only [exec, execRet, h, State.orFail_some, id_eq]

/-- Settles O32, by the decoding of `00EE` and the two outcomes of a pop. -/
theorem returnFromSubroutine : Obligations.ReturnFromSubroutine := by
  refine ⟨fun _ => decodeWord_eq_some_ret_iff, fun s => ⟨fun h => ?_, exec_ret_of_empty s⟩⟩
  have hpop := State.pop_of_some s h
  exact ⟨_, exec_ret_of_pop hpop, rfl, rfl, changesOnly_pop hpop⟩

/-- Settles O33, by the frame of a jump. -/
theorem jumpToAddress : Obligations.JumpToAddress := fun nnn s =>
  ⟨decodeWord_family1 nnn, _, exec_jp nnn s, addrToWord_toNat nnn, changesOnly_jump s _⟩

/-- Settles O34, by the two outcomes of a push; its frame is that of the push and then that of the
jump. -/
theorem callSubroutine : Obligations.CallSubroutine := by
  refine fun nnn s => ⟨decodeWord_family2 nnn, fun h => ?_, exec_call_of_full nnn s⟩
  have hpush := State.push_of_room s h
  have hframe := (changesOnly_push h hpush).trans (changesOnly_jump _ (addrToWord nnn))
  exact ⟨_, exec_call_of_push nnn hpush, addrToWord_toNat nnn, rfl, Vector.getElem_set_self h,
    hframe.mono fun _ => Or.symm⟩

/-- Settles O35, by the sum that does not wrap and the frame of a jump. -/
theorem jumpWithOffset : Obligations.JumpWithOffset := fun nnn s =>
  ⟨decodeWord_familyB nnn, _, exec_jpV0 nnn s, byteToWord_add_addrToWord_toNat _ nnn,
    changesOnly_jump s _⟩

end Sys2Proof.Machine
end

