-- ==== Sys2Proof/Proofs/Skips.lean ====
section
/-! PROOFS. The skips on an immediate (spec/43_skips.md R130 to R132): the words that decode to them,
what a skip leaves unchanged, and where it leaves pc when its condition compares two bytes. -/

namespace Sys2Proof

variable (x : Nibble) (nn : Byte)

/-- Every word of family 3 is a skip if equal to an immediate (R131). -/
theorem decodeWord_family3 : decodeWord (0x3#4 ++ x ++ nn) = some (.seImm x nn) := by
  simp [decodeWord]

/-- Every word of family 4 is a skip if not equal to an immediate (R132). -/
theorem decodeWord_family4 : decodeWord (0x4#4 ++ x ++ nn) = some (.sneImm x nn) := by
  simp [decodeWord]

end Sys2Proof

namespace Sys2Proof.Machine

/-- A skip changes pc only, by the jump of an advance when it is taken (R130). -/
theorem changesOnly_skipIf (s : State) (c : Bool) : ChangesOnly (· = .pc) s (s.skipIf c) := by
  cases c
  case false => exact fun _ _ => rfl
  case true => exact changesOnly_jump s _

/-- A skip on equal bytes goes 2 further exactly when they are equal. -/
theorem State.skipIf_beq_pc (s : State) (a b : Byte) :
    (s.skipIf (a == b)).pc = if a = b then s.pc + 2#16 else s.pc := by
  simp only [State.skipIf_pc, beq_iff_eq]

/-- A skip on different bytes is the complement: it goes 2 further exactly when they differ. -/
theorem State.skipIf_bne_pc (s : State) (a b : Byte) :
    (s.skipIf (a != b)).pc = if a = b then s.pc else s.pc + 2#16 := by
  simp only [State.skipIf_pc, bne_iff_ne, ite_not]

/-- `3XNN` completes in every state (R131). -/
theorem exec_seImm (x : Nibble) (nn : Byte) (s : State) :
    exec (.seImm x nn) s = .next (s.skipIf (s.getReg x == nn)) := rfl

/-- `4XNN` completes in every state (R132). -/
theorem exec_sneImm (x : Nibble) (nn : Byte) (s : State) :
    exec (.sneImm x nn) s = .next (s.skipIf (s.getReg x != nn)) := rfl

/-- Settles O37, by the frame of a skip and its pc on equal bytes. -/
theorem skipIfEqualImmediate : Obligations.SkipIfEqualImmediate := fun x nn s =>
  ⟨decodeWord_family3 x nn, _, exec_seImm x nn s, State.skipIf_beq_pc s _ nn,
    changesOnly_skipIf s _⟩

/-- Settles O38, by the frame of a skip and its pc on different bytes. -/
theorem skipIfNotEqualImmediate : Obligations.SkipIfNotEqualImmediate := fun x nn s =>
  ⟨decodeWord_family4 x nn, _, exec_sneImm x nn s, State.skipIf_bne_pc s _ nn,
    changesOnly_skipIf s _⟩

end Sys2Proof.Machine
end

