-- ==== Sys2Proof/Proofs/RegisterWrites.lean ====
section
/-! PROOFS. The ALU instructions that write one register and no flag (spec/44_alu.md R140, R141,
R144): the words that decode to them and what a register write leaves unchanged. -/

namespace Sys2Proof

/-- Every word of family 6 is a load of an immediate (R140). -/
theorem decodeWord_family6 (x : Nibble) (nn : Byte) :
    decodeWord (0x6#4 ++ x ++ nn) = some (.ldImm x nn) := by
  simp [decodeWord]

/-- Every word of family 7 is an addition of an immediate (R141). -/
theorem decodeWord_family7 (x : Nibble) (nn : Byte) :
    decodeWord (0x7#4 ++ x ++ nn) = some (.addImm x nn) := by
  simp [decodeWord]

/-- The sub-dispatch of family 8 answers its first number with the copy of a register (R144). -/
theorem decodeFamily8_zero (x y : Nibble) : decodeFamily8 x y 0x0#4 = some (.ldReg x y) := rfl

end Sys2Proof

namespace Sys2Proof.Machine

/-- A register write changes that register only, VF included when it is another one (R21). -/
theorem changesOnly_setReg (s : State) (x : Nibble) (v : Byte) :
    ChangesOnly (· = .reg x) s (s.setReg x v) := by
  intro p hp
  cases p
  case reg r =>
    have hr : r ≠ x := fun hr => hp (congrArg Piece.reg hr)
    exact congrArg BitVec.toNat ((State.getReg_setReg s x r v).trans (if_neg hr))
  all_goals rfl

/-- `6XNN` completes in every state (R140). -/
theorem exec_ldImm (x : Nibble) (nn : Byte) (s : State) :
    exec (.ldImm x nn) s = .next (s.setReg x nn) := rfl

/-- `7XNN` completes in every state (R141). -/
theorem exec_addImm (x : Nibble) (nn : Byte) (s : State) :
    exec (.addImm x nn) s = .next (s.setReg x (s.getReg x + nn)) := rfl

/-- `8XY0` completes in every state (R144). -/
theorem exec_ldReg (x y : Nibble) (s : State) :
    exec (.ldReg x y) s = .next (s.setReg x (s.getReg y)) := rfl

/-- Settles O41, by the read and the frame of a register write. -/
theorem loadImmediate : Obligations.LoadImmediate := fun x nn s =>
  ⟨decodeWord_family6 x nn, _, exec_ldImm x nn s, State.getReg_setReg_self s x nn,
    changesOnly_setReg s x nn⟩

/-- Settles O42: the byte read back is the wrapping sum, and the frame is that of a register
write, so VF stays. -/
theorem addImmediateWithoutFlag : Obligations.AddImmediateWithoutFlag := by
  refine fun x nn s => ⟨decodeWord_family7 x nn, _, exec_addImm x nn s, ?_,
    changesOnly_setReg s x _⟩
  rw [State.getReg_setReg_self, BitVec.toNat_add]

/-- Settles O43, by the read and the frame of a register write; Vy is read before it, so that
X = Y is no case of its own. -/
theorem copyRegister : Obligations.CopyRegister := fun x y s =>
  ⟨(decodeWord_family8 x y 0x0#4).trans (decodeFamily8_zero x y), _, exec_ldReg x y s,
    State.getReg_setReg_self s x _, changesOnly_setReg s x _⟩

end Sys2Proof.Machine
end

