-- ==== Sys2Proof/Proofs/IndexWrites.lean ====
section
/-! PROOFS. The load of the index register and the addition to it (spec/45_index_and_memory.md R160,
R161): the words that decode to them, what a write of I leaves unchanged, and the wrapping sum. -/

namespace Sys2Proof

/-- Every word of family A is a load of the index register (R160). -/
theorem decodeWord_familyA (nnn : Addr) : decodeWord (0xA#4 ++ nnn) = some (.ldI nnn) := by
  simp [decodeWord]

/-- The sub-dispatch of family F answers `1E` with the addition to the index register (R161). -/
theorem decodeFamilyF_addI (x : Nibble) : decodeFamilyF x 0x1E#8 = some (.addI x) := rfl

end Sys2Proof

namespace Sys2Proof.Machine

/-- A write of I changes I only (R25). -/
theorem changesOnly_setIndex (s : State) (v : Word) :
    ChangesOnly (· = .index) s (s.setIndex v) := by
  intro p hp
  cases p
  case index => exact absurd rfl hp
  all_goals rfl

/-- The index register and a byte add up modulo 65536 (R161). -/
theorem add_byteToWord_toNat (w : Word) (v : Byte) :
    (w + byteToWord v).toNat = (w.toNat + v.toNat) % 65536 := by
  rw [BitVec.toNat_add, byteToWord_toNat]

/-- `ANNN` completes in every state (R160). -/
theorem exec_ldI (nnn : Addr) (s : State) :
    exec (.ldI nnn) s = .next (s.setIndex (addrToWord nnn)) := rfl

/-- `FX1E` completes in every state (R161). -/
theorem exec_addI (x : Nibble) (s : State) :
    exec (.addI x) s = .next (s.setIndex (s.index + byteToWord (s.getReg x))) := rfl

/-- Settles O50: the address is extended with zeros, and a write of I changes nothing else. -/
theorem loadIndex : Obligations.LoadIndex := fun nnn s =>
  ⟨decodeWord_familyA nnn, _, exec_ldI nnn s, addrToWord_toNat nnn, changesOnly_setIndex s _⟩

/-- Settles O51, by the wrapping sum and the frame of a write of I, which leaves VF. -/
theorem addToIndex : Obligations.AddToIndex := fun x s =>
  ⟨(decodeWord_familyF x 0x1E#8).trans (decodeFamilyF_addI x), _, exec_addI x s,
    add_byteToWord_toNat s.index (s.getReg x), changesOnly_setIndex s _⟩

end Sys2Proof.Machine
end

