-- ==== Sys2Proof/Proofs/DelayTimer.lean ====
section
/-! PROOFS. The accesses to the delay timer (spec/46_timers_and_keywait.md R170, R172): the words
that decode to them, what a write of DT leaves unchanged, and where the countdown leaves DT. -/

namespace Sys2Proof

/-- The sub-dispatch of family F answers `07` with the read of the delay timer (R170). -/
theorem decodeFamilyF_ldVxDt (x : Nibble) : decodeFamilyF x 0x07#8 = some (.ldVxDt x) := rfl

/-- The sub-dispatch of family F answers `15` with the write of the delay timer (R172). -/
theorem decodeFamilyF_ldDtVx (x : Nibble) : decodeFamilyF x 0x15#8 = some (.ldDtVx x) := rfl

end Sys2Proof

namespace Sys2Proof.Machine

/-- A write of DT changes DT only (R31). -/
theorem changesOnly_setDelay (s : State) (v : Byte) :
    ChangesOnly (· = .delayTimer) s (s.setDelay v) := by
  intro p hp
  cases p
  case delayTimer => exact absurd rfl hp
  all_goals rfl

/-- `FX07` completes in every state (R170). -/
theorem exec_ldVxDt (x : Nibble) (s : State) :
    exec (.ldVxDt x) s = .next (s.setReg x s.delayTimer) := rfl

/-- `FX15` completes in every state (R172). -/
theorem exec_ldDtVx (x : Nibble) (s : State) :
    exec (.ldDtVx x) s = .next (s.setDelay (s.getReg x)) := rfl

/-- Settles O57: the register write leaves DT, which the countdown lowers only after it was read. -/
theorem readDelayTimer : Obligations.ReadDelayTimer := fun x s =>
  ⟨(decodeWord_familyF x 0x07#8).trans (decodeFamilyF_ldVxDt x), _, exec_ldVxDt x s,
    State.getReg_setReg_self s x _, countDown_toNat s.delayTimer, changesOnly_setReg s x _⟩

/-- Settles O59: the countdown of the same step lowers the value just written. -/
theorem setDelayTimer : Obligations.SetDelayTimer := fun x s =>
  ⟨(decodeWord_familyF x 0x15#8).trans (decodeFamilyF_ldDtVx x), _, exec_ldDtVx x s,
    State.setDelay_delayTimer s _, countDown_toNat (s.getReg x), changesOnly_setDelay s _⟩

end Sys2Proof.Machine
end

