-- ==== Sys2Proof/Proofs/TimerCountdown.lean ====
section
/-! PROOFS. The timer countdown that ends every completed step (spec/60_exceptions.md R195): the
value it leaves in a timer, the sound signal, what it leaves unchanged, and the step as the host
sees it. -/

namespace Sys2Proof.Machine

/-- The countdown of a timer in R195's own words, by a test of the timer: truncated subtraction
needs none, for it leaves 0 at 0. -/
theorem countDown_toNat_eq_ite (t : Byte) :
    (countDown t).toNat = if 0 < t.toNat then t.toNat - 1 else 0 := by
  rw [countDown_toNat]
  split
  case isTrue => rfl
  case isFalse h => omega

/-- The sound expires exactly when ST is 1 before the countdown (R196). -/
theorem State.soundExpires_eq_decide (s : State) :
    s.soundExpires = decide (s.soundTimer = 1#8) := rfl

/-- The countdown changes the two timers only (R195). -/
theorem changesOnly_tick (s : State) :
    ChangesOnly (fun p => p = .delayTimer ∨ p = .soundTimer) s s.tick := by
  intro p hp
  cases p
  case delayTimer => exact absurd (.inl rfl) hp
  case soundTimer => exact absurd (.inr rfl) hp
  all_goals rfl

/-- When the instruction completes, the host sees the state after the countdown and the sound signal
from the state before it (R37, R90). -/
theorem hostStep_of_executePhase_next {s u : State} (h : executePhase s = .next u) :
    hostStep s = (u.tick, ⟨.ok, u.soundExpires⟩) := by
  simp only [hostStep, h]

/-- Settles O12: the step ends in the countdown of the state its instruction left, which lowers the
two timers and nothing else. -/
theorem timersCountDownAfterEveryStep : Obligations.TimersCountDownAfterEveryStep := by
  intro s u h
  have hstep : step s = .next u.tick := step_eq_next.mpr ⟨u, h, rfl⟩
  have hhost : hostStep s = (u.tick, ⟨.ok, decide (u.soundTimer = 1#8)⟩) := by
    rw [hostStep_of_executePhase_next h, State.soundExpires_eq_decide]
  exact ⟨u.tick, hstep, hhost, countDown_toNat_eq_ite u.delayTimer,
    countDown_toNat_eq_ite u.soundTimer, changesOnly_tick u⟩

end Sys2Proof.Machine
end

