-- ==== Sys2Proof/Proofs/Codec.lean ====
section
/-! PROOFS. The decoder and the encoder against each other (spec/30_encoding.md R73 to R79):
decoding undoes encoding, and encoding undoes decoding but for the nibble that families 5 and 9
ignore. -/

namespace Sys2Proof

/-! ### Decoding an encoded word -/

/-- Every word of family 5 is a skip on equal registers, whatever its low nibble (R76). -/
theorem decodeWord_family5 (x y n : Nibble) :
    decodeWord (0x5#4 ++ x ++ y ++ n) = some (.seReg x y) := by
  simp [decodeWord]

/-- Every word of family 9 is a skip on different registers, whatever its low nibble (R76). -/
theorem decodeWord_family9 (x y n : Nibble) :
    decodeWord (0x9#4 ++ x ++ y ++ n) = some (.sneReg x y) := by
  simp [decodeWord]

/-- Every word of family C is a random byte (R154). -/
theorem decodeWord_familyC (x : Nibble) (nn : Byte) :
    decodeWord (0xC#4 ++ x ++ nn) = some (.rnd x nn) := by
  simp [decodeWord]

/-- Every word of family D is a draw (R111). -/
theorem decodeWord_familyD (x y n : Nibble) :
    decodeWord (0xD#4 ++ x ++ y ++ n) = some (.drw x y n) := by
  simp [decodeWord]

/-- Decoding undoes encoding, family by family; in families 8, E and F the fixed low nibble or byte
of the encoded word selects the sub-dispatch's answer. -/
theorem decodeWord_encode (i : Instr) : decodeWord (encode i) = some i := by
  cases i
  case cls => exact decodeWord_eq_some_cls_iff.mpr rfl
  case ret => exact decodeWord_eq_some_ret_iff.mpr rfl
  case jp nnn => exact decodeWord_family1 nnn
  case call nnn => exact decodeWord_family2 nnn
  case seImm x nn => exact decodeWord_family3 x nn
  case sneImm x nn => exact decodeWord_family4 x nn
  case seReg x y => exact decodeWord_family5 x y _
  case ldImm x nn => exact decodeWord_family6 x nn
  case addImm x nn => exact decodeWord_family7 x nn
  case sneReg x y => exact decodeWord_family9 x y _
  case ldI nnn => exact decodeWord_familyA nnn
  case jpV0 nnn => exact decodeWord_familyB nnn
  case rnd x nn => exact decodeWord_familyC x nn
  case drw x y n => exact decodeWord_familyD x y n
  case ldReg x y | orReg x y | andReg x y | xorReg x y | addReg x y | subReg x y | shr x y
      | subn x y | shl x y =>
    exact decodeWord_family8 x y _
  case skp x | sknp x => exact decodeWord_familyE x _
  all_goals exact decodeWord_familyF _ _

/-! ### Encoding a decoded word -/

variable {op : Word} {i : Instr} {f : Nibble}

/-- A word of a known family in the layout `F NNN`. -/
theorem append_fieldNNN (h : fieldF op = f) : f ++ fieldNNN op = op :=
  h ▸ word_of_nnn op

/-- A word of a known family in the layout `F X NN`. -/
theorem append_fieldX_fieldNN (h : fieldF op = f) : f ++ fieldX op ++ fieldNN op = op :=
  h ▸ word_of_xnn op

/-- A word of a known family in the layout `F X Y N`. -/
theorem append_fieldX_fieldY_fieldN (h : fieldF op = f) :
    f ++ fieldX op ++ fieldY op ++ fieldN op = op :=
  h ▸ word_of_xyn op

/-- The mask `FFF0` clears the low nibble and nothing else. -/
theorem and_FFF0_of_fieldF (h : fieldF op = f) :
    op &&& 0xFFF0#16 = f ++ fieldX op ++ fieldY op ++ 0x0#4 := by
  conv_lhs => rw [← append_fieldX_fieldY_fieldN h, show 0xFFF0#16 = 0xFFF#12 ++ 0x0#4 from rfl,
    append_and_append]
  exact congrArg₂ _ BitVec.and_allOnes BitVec.and_zero

/-- The two words of family 0 are the encoder's. -/
theorem encode_of_decodeFamily0 (h : decodeFamily0 op = some i) : encode i = op := by
  unfold decodeFamily0 at h
  split_ifs at h with h1 h2
  · cases h; exact h1.symm
  · cases h; exact h2.symm

/-- What family 8 answers, the encoder writes with the nibble the sub-dispatch saw (R77). -/
theorem encode_of_decodeFamily8 {x y n : Nibble} (h : decodeFamily8 x y n = some i) :
    encode i = 0x8#4 ++ x ++ y ++ n := by
  unfold decodeFamily8 at h
  split_ifs at h <;> cases h <;> subst_vars <;> rfl

/-- What family E answers, the encoder writes with the byte the sub-dispatch saw (R78). -/
theorem encode_of_decodeFamilyE {x : Nibble} {nn : Byte} (h : decodeFamilyE x nn = some i) :
    encode i = 0xE#4 ++ x ++ nn := by
  unfold decodeFamilyE at h
  split_ifs at h <;> cases h <;> subst_vars <;> rfl

/-- What family F answers, the encoder writes with the byte the sub-dispatch saw (R79). -/
theorem encode_of_decodeFamilyF {x : Nibble} {nn : Byte} (h : decodeFamilyF x nn = some i) :
    encode i = 0xF#4 ++ x ++ nn := by
  unfold decodeFamilyF at h
  split_ifs at h <;> cases h <;> subst_vars <;> rfl

/-! ### The decoder on a word of a known family (R74) -/

theorem decodeWord_of_fieldF_0 (h : fieldF op = 0x0#4) :
    decodeWord op = decodeFamily0 op := by
  simp [decodeWord, h]

theorem decodeWord_of_fieldF_1 (h : fieldF op = 0x1#4) :
    decodeWord op = some (.jp (fieldNNN op)) := by
  simp [decodeWord, h]

theorem decodeWord_of_fieldF_2 (h : fieldF op = 0x2#4) :
    decodeWord op = some (.call (fieldNNN op)) := by
  simp [decodeWord, h]

theorem decodeWord_of_fieldF_3 (h : fieldF op = 0x3#4) :
    decodeWord op = some (.seImm (fieldX op) (fieldNN op)) := by
  simp [decodeWord, h]

theorem decodeWord_of_fieldF_4 (h : fieldF op = 0x4#4) :
    decodeWord op = some (.sneImm (fieldX op) (fieldNN op)) := by
  simp [decodeWord, h]

theorem decodeWord_of_fieldF_5 (h : fieldF op = 0x5#4) :
    decodeWord op = some (.seReg (fieldX op) (fieldY op)) := by
  simp [decodeWord, h]

theorem decodeWord_of_fieldF_6 (h : fieldF op = 0x6#4) :
    decodeWord op = some (.ldImm (fieldX op) (fieldNN op)) := by
  simp [decodeWord, h]

theorem decodeWord_of_fieldF_7 (h : fieldF op = 0x7#4) :
    decodeWord op = some (.addImm (fieldX op) (fieldNN op)) := by
  simp [decodeWord, h]

theorem decodeWord_of_fieldF_8 (h : fieldF op = 0x8#4) :
    decodeWord op = decodeFamily8 (fieldX op) (fieldY op) (fieldN op) := by
  simp [decodeWord, h]

theorem decodeWord_of_fieldF_9 (h : fieldF op = 0x9#4) :
    decodeWord op = some (.sneReg (fieldX op) (fieldY op)) := by
  simp [decodeWord, h]

theorem decodeWord_of_fieldF_A (h : fieldF op = 0xA#4) :
    decodeWord op = some (.ldI (fieldNNN op)) := by
  simp [decodeWord, h]

theorem decodeWord_of_fieldF_B (h : fieldF op = 0xB#4) :
    decodeWord op = some (.jpV0 (fieldNNN op)) := by
  simp [decodeWord, h]

theorem decodeWord_of_fieldF_C (h : fieldF op = 0xC#4) :
    decodeWord op = some (.rnd (fieldX op) (fieldNN op)) := by
  simp [decodeWord, h]

theorem decodeWord_of_fieldF_D (h : fieldF op = 0xD#4) :
    decodeWord op = some (.drw (fieldX op) (fieldY op) (fieldN op)) := by
  simp [decodeWord, h]

theorem decodeWord_of_fieldF_E (h : fieldF op = 0xE#4) :
    decodeWord op = decodeFamilyE (fieldX op) (fieldNN op) := by
  simp [decodeWord, h]

theorem decodeWord_of_fieldF_F (h : fieldF op = 0xF#4) :
    decodeWord op = decodeFamilyF (fieldX op) (fieldNN op) := by
  simp [decodeWord, h]

/-- A nibble holds one of sixteen numbers. -/
theorem nibble_cases (f : Nibble) :
    f = 0x0#4 ∨ f = 0x1#4 ∨ f = 0x2#4 ∨ f = 0x3#4 ∨ f = 0x4#4 ∨ f = 0x5#4 ∨ f = 0x6#4 ∨
    f = 0x7#4 ∨ f = 0x8#4 ∨ f = 0x9#4 ∨ f = 0xA#4 ∨ f = 0xB#4 ∨ f = 0xC#4 ∨ f = 0xD#4 ∨
    f = 0xE#4 ∨ f = 0xF#4 := by
  decide +revert

/-- Encoding undoes decoding in every family that reads all nibbles of its words. -/
theorem encode_of_decodeWord (h : decodeWord op = some i) (h5 : fieldF op ≠ 0x5#4)
    (h9 : fieldF op ≠ 0x9#4) : encode i = op := by
  rcases nibble_cases (fieldF op) with hf | hf | hf | hf | hf | hf | hf | hf | hf | hf | hf | hf |
    hf | hf | hf | hf
  · exact encode_of_decodeFamily0 (decodeWord_of_fieldF_0 hf ▸ h)
  · cases decodeWord_of_fieldF_1 hf ▸ h; exact append_fieldNNN hf
  · cases decodeWord_of_fieldF_2 hf ▸ h; exact append_fieldNNN hf
  · cases decodeWord_of_fieldF_3 hf ▸ h; exact append_fieldX_fieldNN hf
  · cases decodeWord_of_fieldF_4 hf ▸ h; exact append_fieldX_fieldNN hf
  · exact absurd hf h5
  · cases decodeWord_of_fieldF_6 hf ▸ h; exact append_fieldX_fieldNN hf
  · cases decodeWord_of_fieldF_7 hf ▸ h; exact append_fieldX_fieldNN hf
  · exact (encode_of_decodeFamily8 (decodeWord_of_fieldF_8 hf ▸ h)).trans
      (append_fieldX_fieldY_fieldN hf)
  · exact absurd hf h9
  · cases decodeWord_of_fieldF_A hf ▸ h; exact append_fieldNNN hf
  · cases decodeWord_of_fieldF_B hf ▸ h; exact append_fieldNNN hf
  · cases decodeWord_of_fieldF_C hf ▸ h; exact append_fieldX_fieldNN hf
  · cases decodeWord_of_fieldF_D hf ▸ h; exact append_fieldX_fieldY_fieldN hf
  · exact (encode_of_decodeFamilyE (decodeWord_of_fieldF_E hf ▸ h)).trans
      (append_fieldX_fieldNN hf)
  · exact (encode_of_decodeFamilyF (decodeWord_of_fieldF_F hf ▸ h)).trans
      (append_fieldX_fieldNN hf)

/-- In families 5 and 9 the encoder writes the ignored nibble as 0 (R76). -/
theorem encode_of_decodeWord_masked (h : decodeWord op = some i)
    (hf : fieldF op = 0x5#4 ∨ fieldF op = 0x9#4) : encode i = op &&& 0xFFF0#16 := by
  rcases hf with h5 | h9
  · obtain rfl := Option.some.inj ((decodeWord_of_fieldF_5 h5).symm.trans h)
    exact (and_FFF0_of_fieldF h5).symm
  · obtain rfl := Option.some.inj ((decodeWord_of_fieldF_9 h9).symm.trans h)
    exact (and_FFF0_of_fieldF h9).symm

/-- Settles O2, by the decoding of each family. -/
theorem decodeOfEncode : Obligations.DecodeOfEncode := decodeWord_encode

/-- Settles O3, by the two sorts of families. -/
theorem encodeOfDecode : Obligations.EncodeOfDecode := by
  intro op i h
  split
  case isTrue hf => exact encode_of_decodeWord_masked h hf
  case isFalse hf =>
    obtain ⟨h5, h9⟩ := not_or.mp hf
    exact encode_of_decodeWord h h5 h9

/-- Settles O1: the words are literals, so the decoder computes each answer. -/
theorem sampleWordsDecode : Obligations.SampleWordsDecode := by
  refine ⟨rfl, rfl, rfl, rfl, rfl, rfl, rfl, rfl, rfl, rfl, rfl, rfl, rfl, rfl, rfl, rfl, rfl⟩

end Sys2Proof
end

