-- ==== Sys2Proof/Proofs/OpcodeTable.lean ====
section
/-! PROOFS. The illegal encodings (spec/30_encoding.md R80) and the opcode table against the
decoder: which words no family answers, that the rows of the table exclude each other, and that
they cover the decodable words. -/

namespace Sys2Proof

/-! ### Words that are no instruction -/

/-- Four families have a sub-dispatch; every word of the other twelve is an instruction. -/
theorem subDispatch_cases (f : Nibble) :
    f = 0x0#4 ∨ f = 0x8#4 ∨ f = 0xE#4 ∨ f = 0xF#4 ∨
    f ∈ [0x1#4, 0x2#4, 0x3#4, 0x4#4, 0x5#4, 0x6#4, 0x7#4, 0x9#4, 0xA#4, 0xB#4, 0xC#4, 0xD#4] := by
  decide +revert

theorem decodeFamily0_eq_none_iff {op : Word} :
    decodeFamily0 op = none ↔ op ∉ [0x00E0#16, 0x00EE#16] := by
  simp [decodeFamily0, ite_eq_iff]

theorem decodeFamily8_eq_none_iff {x y n : Nibble} :
    decodeFamily8 x y n = none ↔ n ∈ [0x8#4, 0x9#4, 0xA#4, 0xB#4, 0xC#4, 0xD#4, 0xF#4] := by
  rcases nibble_cases n with h | h | h | h | h | h | h | h | h | h | h | h | h | h | h | h <;>
    simp [h, decodeFamily8]

theorem decodeFamilyE_eq_none_iff {x : Nibble} {nn : Byte} :
    decodeFamilyE x nn = none ↔ nn ∉ [0x9E#8, 0xA1#8] := by
  simp [decodeFamilyE, ite_eq_iff]

theorem decodeFamilyF_eq_none_iff {x : Nibble} {nn : Byte} :
    decodeFamilyF x nn = none ↔
      nn ∉ [0x07#8, 0x0A#8, 0x15#8, 0x18#8, 0x1E#8, 0x29#8, 0x33#8, 0x55#8, 0x65#8] := by
  simp [decodeFamilyF, ite_eq_iff]

end Sys2Proof

namespace Sys2Proof.Machine

/-- Only families 0, 8, E and F hold words that are no instruction, those their sub-dispatch does
not list (R80). -/
theorem decodeWord_eq_none_iff {op : Word} : decodeWord op = none ↔ IllegalWord op := by
  rcases subDispatch_cases (fieldF op) with h | h | h | h | h
  · rw [decodeWord_of_fieldF_0 h, decodeFamily0_eq_none_iff]; simp [IllegalWord, h]
  · rw [decodeWord_of_fieldF_8 h, decodeFamily8_eq_none_iff]; simp [IllegalWord, h]
  · rw [decodeWord_of_fieldF_E h, decodeFamilyE_eq_none_iff]; simp [IllegalWord, h]
  · rw [decodeWord_of_fieldF_F h, decodeFamilyF_eq_none_iff]; simp [IllegalWord, h]
  · simp only [List.mem_cons, List.not_mem_nil, or_false] at h
    rcases h with h | h | h | h | h | h | h | h | h | h | h | h <;>
      simp [decodeWord, IllegalWord, h]

/-- Settles O5, by the list of R80 and the step that fetches an undefined word. -/
theorem illegalWordsFailTheStep : Obligations.IllegalWordsFailTheStep :=
  ⟨fun _ => decodeWord_eq_none_iff, fun _ _ hf hop =>
    step_of_undefined hf (decodeWord_eq_none_iff.mpr hop)⟩

end Sys2Proof.Machine

namespace Sys2Proof

/-! ### The opcode table -/

/-- No word carries the fixed bits of two rows that fix different values in the bits they both
fix. -/
theorem OpcodeRow.not_covers_both {r r' : OpcodeRow} {op : Word}
    (hdiff : r.fixed &&& r'.mask ≠ r'.fixed &&& r.mask) :
    ¬ (r.covers op = true ∧ r'.covers op = true) := by
  rintro ⟨h, h'⟩
  simp only [OpcodeRow.covers, beq_iff_eq] at h h'
  apply hdiff
  rw [← h, ← h', BitVec.and_assoc, BitVec.and_assoc, BitVec.and_comm r.mask]

/-- Any two rows of the opcode table fix different values in some bit they both fix. -/
theorem opcodeTable_pairwise :
    opcodeTable.Pairwise fun r r' => r.fixed &&& r'.mask ≠ r'.fixed &&& r.mask := by
  decide

/-- At most one row of the opcode table covers a word. -/
theorem length_filter_covers_le_one (op : Word) :
    (opcodeTable.filter (·.covers op)).length ≤ 1 := by
  have hpair := (opcodeTable_pairwise.imp
    (OpcodeRow.not_covers_both (op := op))).filter (·.covers op)
  have hmem : ∀ r ∈ opcodeTable.filter (·.covers op), r.covers op = true := fun r hr =>
    (List.mem_filter.mp hr).2
  generalize opcodeTable.filter (·.covers op) = rows at hpair hmem
  match rows, hpair with
  | [], _ => simp
  | [_], _ => simp
  | r :: r' :: _, hpair =>
    refine absurd ⟨hmem r ?_, hmem r' ?_⟩ ((List.pairwise_cons.mp hpair).1 r' ?_) <;> simp

section
open Laws.Encoding

variable {op c : Word}

/-- A row of a family without sub-dispatch fixes the family alone. -/
theorem and_F000_eq_iff :
    op &&& 0xF000#16 = c ↔ fieldF op = c.extractLsb' 12 4 ∧ c.extractLsb' 0 12 = 0#12 := by
  conv_lhs => rw [← word_of_nnn op, mask_nnn]
  constructor
  · rintro rfl
    exact ⟨(fieldF_nnn _ _).symm, fieldNNN_nnn _ _⟩
  · rintro ⟨(hF : _ = fieldF c), (hNNN : fieldNNN c = _)⟩
    rw [← word_of_nnn c, hF, hNNN]

/-- A row of family 8 fixes the family and the low nibble. -/
theorem and_F00F_eq_iff :
    op &&& 0xF00F#16 = c ↔ fieldF op = c.extractLsb' 12 4 ∧ c.extractLsb' 8 4 = 0#4 ∧
      c.extractLsb' 4 4 = 0#4 ∧ fieldN op = c.extractLsb' 0 4 := by
  conv_lhs => rw [← word_of_xyn op, mask_xyb]
  constructor
  · rintro rfl
    exact ⟨(fieldF_xyn _ _ _ _).symm, fieldX_xyn _ _ _ _, fieldY_xyn _ _ _ _,
      (fieldN_xyn _ _ _ _).symm⟩
  · rintro ⟨(hF : _ = fieldF c), (hX : fieldX c = _), (hY : fieldY c = _), (hN : _ = fieldN c)⟩
    rw [← word_of_xyn c, hF, hX, hY, hN]

/-- A row of families E and F fixes the family and the low byte. -/
theorem and_F0FF_eq_iff :
    op &&& 0xF0FF#16 = c ↔ fieldF op = c.extractLsb' 12 4 ∧ c.extractLsb' 8 4 = 0#4 ∧
      fieldNN op = c.extractLsb' 0 8 := by
  conv_lhs => rw [← word_of_xnn op, mask_xb]
  constructor
  · rintro rfl
    exact ⟨(fieldF_xnn _ _ _).symm, fieldX_xnn _ _ _, (fieldNN_xnn _ _ _).symm⟩
  · rintro ⟨(hF : _ = fieldF c), (hX : fieldX c = _), (hNN : _ = fieldNN c)⟩
    rw [← word_of_xnn c, hF, hX, hNN]

/-- A row of family 0 fixes the whole word, and with it the family. -/
theorem and_FFFF_eq_iff :
    op &&& 0xFFFF#16 = c ↔ fieldF op = c.extractLsb' 12 4 ∧ op = c := by
  rw [show op &&& 0xFFFF#16 = op from BitVec.and_allOnes]
  exact ⟨fun h => ⟨congrArg fieldF h, h⟩, And.right⟩

end

end Sys2Proof

namespace Sys2Proof.Machine

/-- The opcode table covers every word but the illegal encodings. -/
theorem legalWord_iff {op : Word} : legalWord op = true ↔ ¬ IllegalWord op := by
  simp only [legalWord, opcodeTable, opcodeRowsLow, opcodeRowsAlu, opcodeRowsHigh,
    List.cons_append, List.nil_append, List.any_cons, List.any_nil, Bool.or_eq_true,
    OpcodeRow.covers, beq_iff_eq, BitVec.ofNat_eq_ofNat,
    and_F000_eq_iff, and_F00F_eq_iff, and_F0FF_eq_iff, and_FFFF_eq_iff]
  rcases subDispatch_cases (fieldF op) with h | h | h | h | h
  · simp [IllegalWord, h, or_iff_not_imp_left]
  · rcases nibble_cases (fieldN op) with hn | hn | hn | hn | hn | hn | hn | hn | hn | hn | hn | hn |
      hn | hn | hn | hn <;> simp [IllegalWord, h, hn]
  · simp [IllegalWord, h, or_iff_not_imp_left]
  · simp [IllegalWord, h, or_iff_not_imp_left]
  · simp only [List.mem_cons, List.not_mem_nil, or_false] at h
    rcases h with h | h | h | h | h | h | h | h | h | h | h | h <;> simp [IllegalWord, h]

/-- The decoder accepts the words the opcode table covers: both refuse the illegal encodings. -/
theorem isSome_decodeWord_eq_legalWord (op : Word) : (decodeWord op).isSome = legalWord op := by
  rw [Bool.eq_iff_iff, legalWord_iff, ← decodeWord_eq_none_iff, Option.isSome_iff_ne_none]

/-- Settles O6: the decoder and the table refuse the same words, the rows exclude each other, and
an encoded word decodes. -/
theorem decoderAgreesWithOpcodeTable : Obligations.DecoderAgreesWithOpcodeTable := by
  refine ⟨isSome_decodeWord_eq_legalWord, length_filter_covers_le_one, fun i => ?_⟩
  rw [← isSome_decodeWord_eq_legalWord, decodeWord_encode, Option.isSome_some]

end Sys2Proof.Machine
end

