-- ==== Sys2Proof/Proofs/Effect.lean ====
section
/-! PROOFS. What an instruction does when its duty holds (spec/70_reset_and_hazards.md R214), as one
total function of the state: `exec` answers this effect when the duty holds and the instruction's
own failure when it does not. Every statement about all instructions is a statement about `duty` and
`effect`. -/

namespace Sys2Proof.Machine

/-- The state an instruction leaves when its duty holds. A skip and a wait are jumps to one of two
addresses, so that each row is a composition of the updates of Machine/Ops.lean. -/
def effect (i : Instr) (s : State) : State :=
  match i with
  | .cls => s.setFramebuffer 0#2048
  | .ret =>
    { s with
      pc := s.stack[s.sp.val - 1]'(by omega)
      sp := ⟨s.sp.val - 1, by omega⟩ }
  | .jp nnn => s.jump (addrToWord nnn)
  | .call nnn =>
    { s with
      pc := addrToWord nnn
      stack := s.stack.setIfInBounds s.sp.val s.pc
      sp := ⟨min (s.sp.val + 1) 16, by omega⟩ }
  | .seImm x nn => s.jump (if s.getReg x = nn then s.pc + 2#16 else s.pc)
  | .sneImm x nn => s.jump (if s.getReg x ≠ nn then s.pc + 2#16 else s.pc)
  | .seReg x y => s.jump (if s.getReg x = s.getReg y then s.pc + 2#16 else s.pc)
  | .sneReg x y => s.jump (if s.getReg x ≠ s.getReg y then s.pc + 2#16 else s.pc)
  | .skp x => s.jump (if s.keyPressed (s.getReg x) = some true then s.pc + 2#16 else s.pc)
  | .sknp x => s.jump (if s.keyPressed (s.getReg x) = some false then s.pc + 2#16 else s.pc)
  | .ldImm x nn => s.setReg x nn
  | .addImm x nn => s.setReg x (s.getReg x + nn)
  | .ldReg x y => s.setReg x (s.getReg y)
  | .orReg x y => s.setReg x (s.getReg x ||| s.getReg y)
  | .andReg x y => s.setReg x (s.getReg x &&& s.getReg y)
  | .xorReg x y => s.setReg x (s.getReg x ^^^ s.getReg y)
  | .addReg x y =>
    s.setResultFlag x (s.getReg x + s.getReg y) (carry (s.getReg x) (s.getReg y))
  | .subReg x y =>
    s.setResultFlag x (s.getReg x - s.getReg y) (noBorrow (s.getReg x) (s.getReg y))
  | .shr x _ => s.setResultFlag x (s.getReg x >>> 1) (lowBit (s.getReg x))
  | .subn x y =>
    s.setResultFlag x (s.getReg y - s.getReg x) (noBorrow (s.getReg y) (s.getReg x))
  | .shl x _ => s.setResultFlag x (s.getReg x <<< 1) (highBit (s.getReg x))
  | .ldI nnn => s.setIndex (addrToWord nnn)
  | .jpV0 nnn => s.jump (byteToWord (s.getReg 0x0#4) + addrToWord nnn)
  | .rnd x nn => rndWith (Config.rnd s.draws) x nn s
  | .drw x y n =>
    s.drawSprite (s.memory.readBytes s.index.toNat n.toNat) (s.getReg x) (s.getReg y)
  | .ldVxDt x => s.setReg x s.delayTimer
  | .ldVxK x =>
    (s.setReg x ((s.leastPressedKey.map (BitVec.ofNat 8)).getD (s.getReg x))).jump
      (if s.leastPressedKey = none then s.instrAddr else s.pc)
  | .ldDtVx x => s.setDelay (s.getReg x)
  | .ldStVx x => s.setSound (s.getReg x)
  | .addI x => s.setIndex (s.index + byteToWord (s.getReg x))
  | .ldF x => s.setIndex (BitVec.ofNat 16 ((s.getReg x).toNat * 5))
  | .ldB x => { s with memory := s.memory.writeBytes s.index.toNat (bcdDigits (s.getReg x)) }
  | .storeRegs x => { s with memory := s.memory.writeBytes s.index.toNat (s.firstRegs x) }
  | .loadRegs x => s.setFirstRegs (s.memory.readBytes s.index.toNat (x.toNat + 1))

/-! ### The tie to `exec` -/

/-- A skip is a jump to the next instruction or the one after it (R130). -/
theorem State.skipIf_eq_jump (s : State) (c : Bool) (p : Prop) [Decidable p] (h : c = true ↔ p) :
    s.skipIf c = s.jump (if p then s.pc + 2#16 else s.pc) := by
  cases c
  case false => rw [if_neg (by simp [← h])]; rfl
  case true => rw [if_pos (h.mp rfl)]; rfl

/-- Writing back what a register holds changes nothing. -/
@[simp] theorem State.setReg_getReg (s : State) (x : Nibble) : s.setReg x (s.getReg x) = s := by
  simp [State.setReg, State.getReg]

/-- A register with at most 15 in it names a key (R135). -/
theorem State.exists_keyPressed (s : State) {k : Byte} (h : k.toNat ≤ 15) :
    ∃ down, s.keyPressed k = some down :=
  ⟨_, State.keyPressed_eq_some.mpr ⟨by omega, rfl⟩⟩

/-- Only an instruction with a failure kind has a duty it can break (R214). -/
theorem failureOf_of_not_duty {i : Instr} {s : State} (h : ¬ duty i s) :
    ∃ kind, failureOf i = some kind := by
  cases i
  case ret | call | skp | sknp | ldF | drw | ldB | storeRegs | loadRegs => exact ⟨_, rfl⟩
  all_goals exact absurd trivial h

/-- An instruction whose duty holds completes with its effect. -/
theorem exec_of_duty {i : Instr} {s : State} (h : duty i s) : exec i s = .next (effect i s) := by
  cases i
  case ret =>
    exact exec_ret_of_pop (State.pop_of_some s h)
  case call nnn =>
    rw [exec_call_of_push nnn (State.push_of_room s h)]
    have hroom : s.sp.val < 16 := h
    have hmin : min (s.sp.val + 1) 16 = s.sp.val + 1 := by omega
    have hset : s.stack.setIfInBounds s.sp.val s.pc = s.stack.set s.sp.val s.pc hroom := by
      ext k hk
      simp [Vector.getElem_setIfInBounds, Vector.getElem_set]
    simp only [effect, State.jump, hset, hmin]
  case seImm | seReg =>
    exact congrArg Host.Outcome.next (State.skipIf_eq_jump s _ _ beq_iff_eq)
  case sneImm | sneReg =>
    exact congrArg Host.Outcome.next (State.skipIf_eq_jump s _ _ bne_iff_ne)
  case skp x =>
    obtain ⟨down, hkey⟩ := State.exists_keyPressed s h
    simp only [exec, execSkp, hkey, State.orFail_some]
    exact congrArg Host.Outcome.next (State.skipIf_eq_jump s _ _ (by simp [hkey]))
  case sknp x =>
    obtain ⟨down, hkey⟩ := State.exists_keyPressed s h
    simp only [exec, execSknp, hkey, State.orFail_some]
    exact congrArg Host.Outcome.next (State.skipIf_eq_jump s _ _ (by simp [hkey]))
  case drw x y n =>
    have hin := State.readBlock_of_in s _ _ ((inMemory_iff _ _).mpr h)
    simp only [exec, execDrw, hin, State.orFail_some, effect]
  case ldF x =>
    have hglyph := glyphAddress_eq_some.mpr ⟨h, rfl⟩
    simp only [exec, execLdF, hglyph, State.orFail_some, effect]
  case ldB x =>
    have hin := State.writeBlock_of_in s _ (bcdDigits (s.getReg x)) ((inMemory_succ _ 2).mpr h)
    simp only [exec, execLdB, hin, State.orFail_some, effect, id]
  case storeRegs x =>
    have hin := State.writeBlock_of_in s _ (s.firstRegs x)
      ((State.firstRegs_length s x) ▸ (inMemory_succ _ _).mpr h)
    simp only [exec, execStoreRegs, hin, State.orFail_some, effect, id]
  case loadRegs x =>
    have hin := State.readBlock_of_in s _ _ ((inMemory_succ _ _).mpr h)
    simp only [exec, execLoadRegs, blockLength, hin, State.orFail_some, effect]
  case ldVxK x =>
    cases hkey : s.leastPressedKey <;> simp [exec, execLdVxK, effect, hkey, State.repeatInstr]
    rfl
  all_goals rfl

/-- An instruction completes exactly when its duty holds, and then with its effect. -/
theorem exec_eq_next_iff {i : Instr} {s t : State} :
    exec i s = .next t ↔ duty i s ∧ t = effect i s := by
  constructor
  · intro h
    have hduty : duty i s := by
      by_contra hbroken
      obtain ⟨kind, hkind⟩ := failureOf_of_not_duty hbroken
      cases (exec_eq_fault_iff.mpr ⟨hbroken, kind, hkind, rfl⟩).symm.trans h
    exact ⟨hduty, Host.Outcome.next.inj (h.symm.trans (exec_of_duty hduty))⟩
  · rintro ⟨hduty, rfl⟩
    exact exec_of_duty hduty

/-- An instruction whose duty is broken fails with its own kind. -/
theorem exec_of_not_duty {i : Instr} {s : State} {kind : Word → Word → Fault} (h : ¬ duty i s)
    (hkind : failureOf i = some kind) : exec i s = .fault (kind (encode i) s.instrAddr) :=
  exec_eq_fault_iff.mpr ⟨h, kind, hkind, rfl⟩

/-! ### The same instruction from two states -/

variable {i : Instr} {s s' : State}

/-- A duty speaks of the general registers, of I and of sp, and of nothing else. -/
theorem duty_congr (hregs : s'.registers = s.registers) (hindex : s'.index = s.index)
    (hsp : s'.sp = s.sp) : duty i s' ↔ duty i s := by
  have hreg : ∀ x, s'.getReg x = s.getReg x := fun x => State.getReg_congr s s' x hregs
  cases i <;> simp only [duty, hreg, hindex, hsp]

/-- From two states that agree on the duty and on pc, an instruction answers alike up to every
relation of its two effects. -/
theorem exec_alike {rel : State → State → Prop} (hduty : duty i s' ↔ duty i s)
    (hpc : s'.pc = s.pc) (heffect : duty i s → rel (effect i s) (effect i s')) :
    Alike rel (exec i s) (exec i s') := by
  by_cases h : duty i s
  · rw [exec_of_duty h, exec_of_duty (hduty.mpr h)]
    exact heffect h
  · obtain ⟨kind, hkind⟩ := failureOf_of_not_duty h
    rw [exec_of_not_duty h hkind, exec_of_not_duty (mt hduty.mp h) hkind]
    exact congrArg (kind (encode i)) (congrArg (· - 2#16) hpc.symm)

/-- From two states that agree on the duty and on pc, an instruction answers the same up to an
update that its effects differ by. -/
theorem exec_eq_onNext {g : State → State} (hduty : duty i s' ↔ duty i s) (hpc : s'.pc = s.pc)
    (heffect : effect i s' = g (effect i s)) : exec i s' = onNext g (exec i s) := by
  by_cases h : duty i s
  · rw [exec_of_duty h, exec_of_duty (hduty.mpr h), heffect]
    rfl
  · obtain ⟨kind, hkind⟩ := failureOf_of_not_duty h
    rw [exec_of_not_duty h hkind, exec_of_not_duty (mt hduty.mp h) hkind]
    exact congrArg (Host.Outcome.fault ∘ kind (encode i)) (congrArg (· - 2#16) hpc)

end Sys2Proof.Machine
end

