-- ==== Sys2Proof/Proofs/StepOutcomes.lean ====
section
/-! PROOFS. What one step answers (spec/40_cycle_engine.md R90 to R97, spec/60_exceptions.md R181 to
R190): when it completes, what a failure records, and that a failure changes nothing and stays. -/

namespace Sys2Proof.Machine

variable {s : State} {f : Fault}

/-! ### Completing -/

/-- A step that runs an instruction whose duty holds completes with its effect and the countdown. -/
theorem step_of_duty {op : Word} {i : Instr} (hf : s.fetch = some op) (hd : decodeWord op = some i)
    (h : duty i s.advance) : step s = .next (effect i s.advance).tick :=
  step_eq_next.mpr ⟨_, (executePhase_of_decode hf hd).trans (exec_of_duty h), rfl⟩

/-- All the ways a step can complete. -/
theorem exists_effect_of_step_eq_next {t : State} (h : step s = .next t) :
    ∃ op i, s.fetch = some op ∧ decodeWord op = some i ∧ duty i s.advance ∧
      t = (effect i s.advance).tick := by
  obtain ⟨u, hu, rfl⟩ := step_eq_next.mp h
  obtain ⟨op, i, hf, hd, hexec⟩ := executePhase_eq_next hu
  obtain ⟨hduty, rfl⟩ := exec_eq_next_iff.mp hexec
  exact ⟨op, i, hf, hd, hduty, rfl⟩

/-- No step is refused: a phase that answers no instruction answers a failure. -/
theorem step_ne_refused (r : Refusal) : step s ≠ .refused r := by
  cases hf : s.fetch
  case none => simp [step, executePhase, hf, tickPhase]
  case some op =>
    cases hd : decodeWord op
    case none => simp [step_of_undefined hf hd]
    case some i =>
      rw [step, executePhase_of_decode hf hd]
      cases hexec : exec i s.advance
      case refused => exact absurd hexec exec_ne_refused
      all_goals simp [tickPhase]

/-- Settles O13, by the duty of the instruction that was fetched and decoded. -/
theorem stepCompletesIffDutiesHold : Obligations.StepCompletesIffDutiesHold := by
  refine fun s => ⟨⟨?_, ?_⟩, step_ne_refused⟩
  · rintro ⟨t, h⟩
    obtain ⟨op, i, hf, hd, hduty, -⟩ := exists_effect_of_step_eq_next h
    exact ⟨op, i, hf, hd, hduty⟩
  · rintro ⟨op, i, hf, hd, hduty⟩
    exact ⟨_, step_of_duty hf hd hduty⟩

/-- Settles O10, by the execute phase of the word fetched big-endian. -/
theorem stepRunsDecodedInstruction : Obligations.StepRunsDecodedInstruction := by
  intro s i hin hd
  have hphase : executePhase s = exec i s.advance := executePhase_of_decode (s.fetch_of_in hin) hd
  exact ⟨fun t h => step_eq_next.mpr ⟨t, hphase.trans h, rfl⟩,
    fun f h => step_eq_fault.mpr (hphase.trans h)⟩

/-! ### Failing -/

/-- An instruction's failure records its encoded word and the address it was fetched from. -/
theorem failureOf_records {i : Instr} {kind : Word → Word → Fault} (h : failureOf i = some kind)
    (op p : Word) : (kind op p).address = p ∧ (kind op p).opcode = some op := by
  cases i <;> cases h <;> exact ⟨rfl, rfl⟩

/-- The encoder writes the fetched word of an instruction that can fail: no such instruction is in
family 5 or 9, which ignore a nibble. -/
theorem encode_of_failureOf {op : Word} {i : Instr} {kind : Word → Word → Fault}
    (hd : decodeWord op = some i) (h : failureOf i = some kind) : encode i = op := by
  refine encode_of_decodeWord hd (fun h5 => ?_) (fun h9 => ?_)
  · cases (decodeWord_of_fieldF_5 h5).symm.trans hd
    cases h
  · cases (decodeWord_of_fieldF_9 h9).symm.trans hd
    cases h

/-- Settles O14, by the three ways an execute phase can fail: before a fetch, on an undefined word,
and in an instruction. -/
theorem failureRecordsFetchedWord : Obligations.FailureRecordsFetchedWord := by
  intro s f h
  obtain ⟨hf, rfl⟩ | ⟨op, hf, -, rfl⟩ | ⟨op, i, hf, hd, hexec⟩ :=
    executePhase_eq_fault (step_eq_fault.mp h)
  · exact ⟨rfl, hf.symm⟩
  · exact ⟨rfl, hf.symm⟩
  · obtain ⟨-, kind, hkind, rfl⟩ := exec_eq_fault_iff.mp hexec
    rw [encode_of_failureOf hd hkind, State.instrAddr_advance, hf]
    exact failureOf_records hkind op s.pc

/-- A fetch past memory fails the step (R58). -/
theorem step_of_fetch_none (hf : s.fetch = none) : step s = .fault (.fetchOutOfRange s.pc) :=
  step_eq_fault.mpr (by simp only [executePhase, hf])

/-- Settles O11: only the failed fetch records no word, and below 0xFFF there is a fetched word. -/
theorem fetchPastMemoryFails : Obligations.FetchPastMemoryFails := by
  refine fun s => ⟨fun h => step_of_fetch_none (s.fetch_of_out (by omega)), fun h p hstep => ?_⟩
  obtain ⟨-, hop⟩ := failureRecordsFetchedWord s _ hstep
  rw [s.fetch_of_in (by omega)] at hop
  cases hop

/-- Settles O15: the host sees the failure of the execute phase beside the state before it. -/
theorem failingStepChangesNothing : Obligations.FailingStepChangesNothing := by
  intro s f h
  simp only [hostStep, step_eq_fault.mp h]

/-- Settles O16: fetch, decoding and duty depend neither on the keypad nor on the randomness
source. -/
theorem failureIsStable : Obligations.FailureIsStable := by
  intro s f keys d h
  have hfetch : ({ s with keypad := keys, draws := d } : State).fetch = s.fetch := rfl
  obtain ⟨hf, rfl⟩ | ⟨op, hf, hd, rfl⟩ | ⟨op, i, hf, hd, hexec⟩ :=
    executePhase_eq_fault (step_eq_fault.mp h)
  · exact step_of_fetch_none (hfetch.trans hf)
  · exact step_of_undefined (hfetch.trans hf) hd
  · obtain ⟨hbroken, hkind⟩ := exec_eq_fault_iff.mp hexec
    refine step_eq_fault.mpr ((executePhase_of_decode (hfetch.trans hf) hd).trans ?_)
    exact exec_eq_fault_iff.mpr ⟨mt (duty_congr rfl rfl rfl).mp hbroken, hkind⟩

end Sys2Proof.Machine
end

