-- ==== Sys2Proof/Proofs/Invariant.lean ====
section
/-! PROOFS. The program counter after a step (spec/10_state.md R27) and the invariant of the block
(R28, R41): reset meets it and every step keeps it. -/

namespace Sys2Proof.Machine

/-! ### The program counter -/

/-- There is no least pressed key exactly when no key is pressed. -/
theorem State.leastPressedKey_eq_none_iff_not_exists {s : State} :
    s.leastPressedKey = none ↔ ¬ ∃ k : Fin 16, s.keypad[k] = true := by
  simp [State.leastPressedKey_eq_none, Fin.forall_iff]

/-- A word is the number it holds. -/
theorem eq_ofNat_of_toNat {w : Word} {n : Nat} (h : w.toNat = n) : w = BitVec.ofNat 16 n := by
  simp [← h]

/-- The slot a pop reads is a slot of the stack, whatever sp is. -/
theorem stack_getElem?_pred_getD (s : State) :
    s.stack[s.sp.val - 1]?.getD 0#16 = s.stack[s.sp.val - 1]'(by omega) := by
  rw [Vector.getElem?_eq_getElem (by omega), Option.getD_some]

/-- The effect leaves pc where the table of R27 puts it: an instruction sees pc = p + 2. -/
theorem effect_advance_pc (i : Instr) (s : State) : (effect i s.advance).pc = pcAfter i s := by
  have hskip : s.pc + 2#16 + 2#16 = s.pc + 4#16 := by rw [BitVec.add_assoc]; rfl
  cases i
  case ret => exact (stack_getElem?_pred_getD s).symm
  case jp nnn | call nnn => exact eq_ofNat_of_toNat (addrToWord_toNat nnn)
  case jpV0 nnn => exact eq_ofNat_of_toNat (byteToWord_add_addrToWord_toNat _ nnn)
  case seImm | sneImm | seReg | sneReg | skp | sknp =>
    exact congrArg (ite _ · _) hskip
  case ldVxK x =>
    simp only [effect, pcAfter, State.jump_pc, State.leastPressedKey_eq_none_iff_not_exists,
      ite_not, State.instrAddr_advance, State.advance_pc, State.advance_keypad]
  all_goals rfl

/-- Settles O17: the countdown leaves pc where the effect put it. -/
theorem pcAfterStep : Obligations.PcAfterStep := by
  intro s t op i hf hd h
  obtain ⟨op', i', hf', hd', -, rfl⟩ := exists_effect_of_step_eq_next h
  cases hf.symm.trans hf'
  cases hd.symm.trans hd'
  exact effect_advance_pc i s

/-! ### The invariant -/

/-- Memory stays in canonical form: the two stores write it, nothing else does. -/
theorem wf_effect_memory {i : Instr} {s : State} (h : s.memory.wf = true) :
    (effect i s).memory.wf = true := by
  cases i
  case ldB | storeRegs => exact Memory.wf_writeBytes _ _ _ h
  case loadRegs => rwa [effect, State.setFirstRegs_memory]
  all_goals exact h

/-- A stack slot keeps its return address or takes pc, in the push of a call. -/
theorem effect_stack_getElem (i : Instr) (s : State) (k : Fin 16) :
    (effect i s).stack[k] = s.stack[k] ∨ (effect i s).stack[k] = s.pc := by
  cases i
  case call nnn =>
    simp only [effect, Fin.getElem_fin, Vector.getElem_setIfInBounds]
    split
    · exact .inr rfl
    · exact .inl rfl
  case loadRegs => exact .inl (congrArg (·[k]) (State.setFirstRegs_stack s _))
  all_goals exact .inl rfl

/-- After a fetch inside memory, with return addresses at most 0x1000 on the stack, pc is at most
0x10FE: the largest sum `BNNN` jumps to (R28). -/
theorem pcAfter_le {i : Instr} {s : State} (hpc : s.pc.toNat + 1 ≤ 0xFFF)
    (hstack : ∀ k : Fin 16, s.stack[k].toNat ≤ 0x1000) : (pcAfter i s).toNat ≤ 0x10FE := by
  have h0 : s.pc.toNat ≤ 0x10FE := by omega
  have h2 : (s.pc + 2#16).toNat ≤ 0x10FE := by rw [BitVec.toNat_add, BitVec.toNat_ofNat]; omega
  have h4 : (s.pc + 4#16).toNat ≤ 0x10FE := by rw [BitVec.toNat_add, BitVec.toNat_ofNat]; omega
  cases i
  case ret =>
    have hslot := hstack ⟨s.sp.val - 1, by omega⟩
    rw [pcAfter, stack_getElem?_pred_getD]
    exact hslot.trans (by omega)
  case jp nnn | call nnn =>
    have := nnn.isLt
    simp only [pcAfter, BitVec.toNat_ofNat]
    omega
  case jpV0 nnn =>
    have := nnn.isLt
    have := (s.getReg 0x0#4).isLt
    simp only [pcAfter, BitVec.toNat_ofNat]
    omega
  case seImm | sneImm | seReg | sneReg | skp | sknp | ldVxK =>
    simp only [pcAfter]
    split <;> assumption
  all_goals exact h2

/-- Settles O19: the three parts of the invariant are those of the effect, from a state whose pc
has just fetched. -/
theorem stepKeepsInvariant : Obligations.StepKeepsInvariant := by
  rintro s t ⟨hmem, -, hstack⟩ h
  obtain ⟨op, i, hf, -, -, rfl⟩ := exists_effect_of_step_eq_next h
  obtain ⟨hpc, -⟩ := State.fetch_eq_some hf
  refine ⟨wf_effect_memory hmem, ?_, fun k => ?_⟩
  · rw [State.tick_pc, effect_advance_pc]
    exact pcAfter_le hpc hstack
  · rw [State.tick_stack]
    obtain hk | hk := effect_stack_getElem i s.advance k
    · rw [hk]
      exact hstack k
    · rw [hk, State.advance_pc, BitVec.toNat_add, BitVec.toNat_ofNat]
      omega

/-- Settles O18: memory lists nothing, and pc and the slots are literals. -/
theorem resetMeetsInvariant : Obligations.ResetMeetsInvariant := by
  refine ⟨Memory.wf_reset, by decide, fun k => ?_⟩
  simp [State.reset]

end Sys2Proof.Machine
end

