-- ==== Sys2Proof/Proofs/HostMemory.lean ====
section
/-! PROOFS. Memory as reset, `powerOn` and `load` leave it (spec/10_state.md R40, R44, R45,
spec/70_reset_and_hazards.md R210 to R212), and that the canonical form is unique: memories that
read alike are equal (log entry 8). -/

namespace Sys2Proof.Machine

/-! ### The canonical form is unique -/

/-- An address below every listed one reads as the reset contents. -/
theorem Memory.read_of_lt {m : Memory} {a : Nat} (h : ∀ c ∈ m, a < c.1) :
    m.read a = Memory.unlisted a := by
  induction m with
  | nil => rfl
  | cons c rest ih =>
    have hne : c.1 ≠ a := (h c List.mem_cons_self).ne'
    rw [Memory.read, if_neg hne]
    exact ih fun d hd => h d (List.mem_cons_of_mem _ hd)

/-- The first listed address of a canonical memory does not read as the reset contents. -/
theorem Memory.read_first_ne_unlisted {a : Nat} {v : Byte} {rest : Memory}
    (h : Memory.wf ((a, v) :: rest) = true) :
    Memory.read ((a, v) :: rest) a ≠ Memory.unlisted a := by
  obtain ⟨-, hv, -, -⟩ := (Memory.wf_cons a v rest).mp h
  rwa [Memory.read, if_pos rfl]

/-- The first address a canonical memory lists is at or above the first that another one lists, when
the two read alike: below it the other reads as the reset contents. -/
theorem Memory.first_le_of_read_eq {a b : Nat} {v w : Byte} {m n : Memory}
    (hm : Memory.wf ((a, v) :: m) = true) (hn : Memory.wf ((b, w) :: n) = true)
    (h : ∀ c, Memory.read ((a, v) :: m) c = Memory.read ((b, w) :: n) c) : b ≤ a := by
  by_contra hlt
  obtain ⟨-, -, hbelow, -⟩ := (Memory.wf_cons b w n).mp hn
  refine Memory.read_first_ne_unlisted hm ((h a).trans (Memory.read_of_lt fun c hc => ?_))
  rcases List.mem_cons.mp hc with rfl | hc
  · simpa using hlt
  · exact (by omega : a < b).trans (hbelow c hc)

/-- Canonical memories that read alike are equal. -/
theorem Memory.eq_of_read_eq {m n : Memory} (hm : m.wf = true) (hn : n.wf = true)
    (h : ∀ a, m.read a = n.read a) : m = n := by
  induction m generalizing n with
  | nil =>
    cases n with
    | nil => rfl
    | cons d n => exact absurd (h d.1).symm (Memory.read_first_ne_unlisted hn)
  | cons c m ih =>
    obtain ⟨a, v⟩ := c
    cases n with
    | nil => exact absurd (h a) (Memory.read_first_ne_unlisted hm)
    | cons d n =>
      obtain ⟨b, w⟩ := d
      obtain rfl : a = b := Nat.le_antisymm
        (Memory.first_le_of_read_eq hn hm fun c => (h c).symm)
        (Memory.first_le_of_read_eq hm hn h)
      obtain ⟨-, -, hma, hm⟩ := (Memory.wf_cons _ _ _).mp hm
      obtain ⟨-, -, hna, hn⟩ := (Memory.wf_cons _ _ _).mp hn
      have hvw : v = w := by simpa [Memory.read] using h a
      have hrest : ∀ c, Memory.read m c = Memory.read n c := fun c => by
        by_cases hc : a = c
        · rw [← hc, Memory.read_of_lt hma, Memory.read_of_lt hna]
        · simpa only [Memory.read, if_neg hc] using h c
      rw [hvw, ih hm hn hrest]

/-- Settles O20, by induction on the first memory: both begin at the same address with the same
byte, and their rests read alike. -/
theorem canonicalMemoryIsUnique : Obligations.CanonicalMemoryIsUnique :=
  fun _ _ => Memory.eq_of_read_eq

/-! ### Reset and `powerOn` -/

theorem Memory.unlisted_of_lt {a : Nat} (h : a < 80) : Memory.unlisted a = font[a] := by
  simp [Memory.unlisted, h]

theorem Memory.unlisted_of_le {a : Nat} (h : 80 ≤ a) : Memory.unlisted a = 0#8 := by
  simp [Memory.unlisted, h]

/-- Settles O7: memory lists nothing after reset, and every other field is a literal. -/
theorem resetState : Obligations.ResetState := by
  refine ⟨fun a h => Memory.unlisted_of_lt h, fun a h _ => Memory.unlisted_of_le h, fun r => ?_,
    rfl, rfl, fun k => ?_, rfl, rfl, rfl, fun k _ => Framebuffer.pixel_zero k, fun k => ?_⟩
  all_goals simp [State.reset, State.getReg]

/-- `powerOn` writes the font over the reset contents (R210). -/
theorem powerOn_memory (glyphs : Vector Byte 80) (s : State) :
    (powerOn glyphs s).memory = Memory.writeBytes [] 0x000 glyphs.toList := rfl

/-- The bytes of a font over the reset contents: the font at 0x000..0x04F, the reset contents
above. -/
theorem powerOn_memory_read (glyphs : Vector Byte 80) (s : State) (a : Nat) :
    (powerOn glyphs s).memory.read a = if h : a < 80 then glyphs[a] else Memory.unlisted a := by
  have hlen : glyphs.toList.length = 80 := by simp
  rw [powerOn_memory, Memory.read_writeBytes _ _ _ _ (by omega)]
  simp [hlen]

/-- `powerOn` leaves memory in canonical form. -/
theorem wf_powerOn_memory (glyphs : Vector Byte 80) (s : State) :
    (powerOn glyphs s).memory.wf = true :=
  Memory.wf_writeBytes _ _ _ Memory.wf_nil

/-- The default font is the reset contents: installing it lists nothing. -/
theorem powerOn_font_memory (s : State) : (powerOn font s).memory = [] := by
  refine Memory.eq_of_read_eq (wf_powerOn_memory font s) Memory.wf_nil fun a => ?_
  rw [powerOn_memory_read, Memory.read_nil]
  split
  case isTrue h => exact (Memory.unlisted_of_lt h).symm
  case isFalse => rfl

/-- Every piece but a byte of memory is the same whatever memory holds. -/
theorem Piece.value_setMemory {p : Piece} (h : ∀ a, p ≠ .cell a) (s : State) (m : Memory) :
    p.value { s with memory := m } = p.value s := by
  cases p
  case cell a => exact absurd rfl (h a)
  all_goals rfl

/-- Every piece but the count of random bytes is the same whatever that count is. -/
theorem Piece.value_setDraws {p : Piece} (h : p ≠ .draws) (s : State) (d : Nat) :
    p.value { s with draws := d } = p.value s := by
  cases p
  case draws => exact absurd rfl h
  all_goals rfl

/-- Settles O8: memory by the block of writes, the default font by the unique canonical form. -/
theorem initializeInstallsFont : Obligations.InitializeInstallsFont := by
  refine ⟨fun glyphs s => ⟨fun a h => ?_, fun a h _ => ?_, wf_powerOn_memory glyphs s,
    fun p hcell hdraws => ?_⟩, fun s => ?_⟩
  · rw [powerOn_memory_read, dif_pos h]
  · rw [powerOn_memory_read, dif_neg (by omega), Memory.unlisted_of_le h]
  · exact (Piece.value_setDraws hdraws { State.reset with memory := _ } s.draws).trans
      (Piece.value_setMemory hcell State.reset _)
  · rw [powerOn, ← powerOn_memory font s, powerOn_font_memory]
    rfl

/-! ### Blocks of writes, and `load` -/

/-- A block of writes inside memory changes its own bytes only (R55). -/
theorem changesOnly_writeBytes (s : State) (a : Nat) (bytes : List Byte)
    (h : a + bytes.length ≤ 0x1000) :
    ChangesOnly (fun p => ∃ k < bytes.length, p = .cell (a + k)) s
      { s with memory := s.memory.writeBytes a bytes } := by
  intro p hp
  cases p
  case cell b =>
    have hout : ¬ (a ≤ b ∧ b < a + bytes.length) := fun hb =>
      hp ⟨b - a, by omega, by rw [Nat.add_sub_cancel' hb.1]⟩
    simp only [Piece.value, Memory.read_writeBytes _ _ _ _ h, dif_neg hout]
  all_goals rfl

/-- A byte of a block of writes is read back at its own address. -/
theorem Memory.read_writeBytes_add (m : Memory) (a : Nat) (bytes : List Byte)
    (h : a + bytes.length ≤ 0x1000) (k : Nat) (hk : k < bytes.length) :
    (m.writeBytes a bytes).read (a + k) = bytes[k] := by
  rw [Memory.read_writeBytes _ _ _ _ h, dif_pos (by omega)]
  simp

/-- Settles O9: an image of at most 0xE00 bytes at 0x200 ends inside memory. -/
theorem loadCopiesImage : Obligations.LoadCopiesImage := by
  refine fun bound image s => ⟨fun hlen => ?_, fun hlen => if_neg (by omega)⟩
  have hin : 0x200 + image.length ≤ 0x1000 := by have := bound.isLt; omega
  exact ⟨_, if_pos hlen, Memory.read_writeBytes_add _ _ image hin,
    changesOnly_writeBytes s _ image hin⟩

end Sys2Proof.Machine
end

