-- ==== Sys2Proof/Proofs/ResourceAccess.lean ====
section
/-! PROOFS. Which instruction reads and writes the keypad, the framebuffer, the timers, the source
of random bytes and memory (spec/10_state.md R31 to R33, spec/20_memory.md R52,
spec/40_cycle_engine.md R98). For each piece: the effect of every other instruction keeps
it and commutes with replacing it, one instruction a case. (`FX65` goes by the lemmas of
Laws/State.lean: its register file is a computed vector, which `rfl` would evaluate.) -/

namespace Sys2Proof.Machine

variable {i : Instr}

/-! ### Keypad (R33) -/

/-- No effect writes the keypad. -/
theorem effect_keypad (i : Instr) (s : State) : (effect i s).keypad = s.keypad := by
  cases i
  case loadRegs => exact State.setFirstRegs_keypad s _
  all_goals rfl

/-- The effect of an instruction that reads no key commutes with the keypad write. -/
theorem effect_writeKeypad (s : State) (keys : Vector Bool 16) (hskp : ∀ x, i ≠ .skp x)
    (hsknp : ∀ x, i ≠ .sknp x) (hwait : ∀ x, i ≠ .ldVxK x) :
    effect i (writeKeypad keys s) = writeKeypad keys (effect i s) := by
  cases i
  case skp x => exact absurd rfl (hskp x)
  case sknp x => exact absurd rfl (hsknp x)
  case ldVxK x => exact absurd rfl (hwait x)
  all_goals rfl

/-- Settles O24, by what the effects do with the keypad. -/
theorem keypadIsReadOnly : Obligations.KeypadIsReadOnly := by
  refine ⟨fun i s t h => ?_, fun i s keys hskp hsknp hwait => ?_⟩
  · obtain ⟨-, rfl⟩ := exec_eq_next_iff.mp h
    exact effect_keypad i s
  · exact exec_eq_onNext (duty_congr rfl rfl rfl) rfl (effect_writeKeypad s keys hskp hsknp hwait)

/-! ### Framebuffer (R32, R47) -/

/-- Only `00E0` and `DXYN` write the framebuffer. -/
theorem effect_framebuffer (s : State) (hcls : i ≠ .cls) (hdrw : ∀ x y n, i ≠ .drw x y n) :
    (effect i s).framebuffer = s.framebuffer := by
  cases i
  case cls => exact absurd rfl hcls
  case drw x y n => exact absurd rfl (hdrw x y n)
  case loadRegs => exact State.setFirstRegs_framebuffer s _
  all_goals rfl

/-- The effect of an instruction that does not use the framebuffer commutes with replacing it. -/
theorem effect_setFramebuffer (s : State) (fb : Framebuffer) (hcls : i ≠ .cls)
    (hdrw : ∀ x y n, i ≠ .drw x y n) :
    effect i (s.setFramebuffer fb) = (effect i s).setFramebuffer fb := by
  cases i
  case cls => exact absurd rfl hcls
  case drw x y n => exact absurd rfl (hdrw x y n)
  all_goals rfl

/-- The host reads the pixel at column `c` and row `r` at `c + r * 64` (R47). -/
theorem readFramebuffer_getElem? (s : State) {c r : Nat} (hc : c < 64) (hr : r < 32) :
    (readFramebuffer s)[c + r * 64]? = some (s.pixelAt c r) := by
  have hk : c + r * 64 < 2048 := by omega
  simp [readFramebuffer, State.pixelAt, hk]

/-- Settles O25, by what the effects do with the framebuffer; `00E0` puts the clear picture whatever
stood there. -/
theorem framebufferAccess : Obligations.FramebufferAccess := by
  refine ⟨fun i s fb hcls hdrw => ⟨?_, fun t h => ?_⟩, fun s fb => rfl, fun s =>
    ⟨by simp [readFramebuffer], fun c r => readFramebuffer_getElem? s⟩⟩
  · exact exec_eq_onNext (duty_congr rfl rfl rfl) rfl (effect_setFramebuffer s fb hcls hdrw)
  · obtain ⟨-, rfl⟩ := exec_eq_next_iff.mp h
    exact effect_framebuffer s hcls hdrw

/-! ### Timers (R31) -/

/-- Only `FX15` writes DT. -/
theorem effect_delayTimer (s : State) (h : ∀ x, i ≠ .ldDtVx x) :
    (effect i s).delayTimer = s.delayTimer := by
  cases i
  case ldDtVx x => exact absurd rfl (h x)
  case loadRegs => exact State.setFirstRegs_delayTimer s _
  all_goals rfl

/-- Only `FX18` writes ST. -/
theorem effect_soundTimer (s : State) (h : ∀ x, i ≠ .ldStVx x) :
    (effect i s).soundTimer = s.soundTimer := by
  cases i
  case ldStVx x => exact absurd rfl (h x)
  case loadRegs => exact State.setFirstRegs_soundTimer s _
  all_goals rfl

/-- The effect of an instruction that does not use DT commutes with replacing it. -/
theorem effect_setDelay (s : State) (v : Byte) (hread : ∀ x, i ≠ .ldVxDt x)
    (hwrite : ∀ x, i ≠ .ldDtVx x) : effect i (s.setDelay v) = (effect i s).setDelay v := by
  cases i
  case ldVxDt x => exact absurd rfl (hread x)
  case ldDtVx x => exact absurd rfl (hwrite x)
  all_goals rfl

/-- The effect of an instruction that does not write ST commutes with replacing it: none reads
it. -/
theorem effect_setSound (s : State) (v : Byte) (h : ∀ x, i ≠ .ldStVx x) :
    effect i (s.setSound v) = (effect i s).setSound v := by
  cases i
  case ldStVx x => exact absurd rfl (h x)
  all_goals rfl

/-- Settles O26: the two writes of a timer replace it, and the countdown ends every step. -/
theorem timerAccess : Obligations.TimerAccess := by
  refine ⟨fun i s t h => ?_, fun i s v hread hwrite => ?_, fun x s v => rfl, fun i s v h => ?_,
    fun x s v => rfl, fun s u h => ?_⟩
  · obtain ⟨-, rfl⟩ := exec_eq_next_iff.mp h
    exact ⟨effect_delayTimer s, effect_soundTimer s⟩
  · exact exec_eq_onNext (duty_congr rfl rfl rfl) rfl (effect_setDelay s v hread hwrite)
  · exact exec_eq_onNext (duty_congr rfl rfl rfl) rfl (effect_setSound s v h)
  · exact ⟨u.tick, step_eq_next.mpr ⟨u, h, rfl⟩, countDown_toNat u.delayTimer,
      countDown_toNat u.soundTimer⟩

/-! ### Random bytes (R98) -/

/-- Only `CXNN` consumes a random byte. -/
theorem effect_draws (s : State) (h : ∀ x nn, i ≠ .rnd x nn) : (effect i s).draws = s.draws := by
  cases i
  case rnd x nn => exact absurd rfl (h x nn)
  case loadRegs => exact State.setFirstRegs_draws s _
  all_goals rfl

/-- The effect of an instruction that takes no random byte commutes with another place in the
source. -/
theorem effect_setDraws (s : State) (d : Nat) (h : ∀ x nn, i ≠ .rnd x nn) :
    effect i { s with draws := d } = { effect i s with draws := d } := by
  cases i
  case rnd x nn => exact absurd rfl (h x nn)
  all_goals rfl

/-- Settles O28, by what the effects do with the count of random bytes. -/
theorem randomnessOnlyInRnd : Obligations.RandomnessOnlyInRnd := by
  refine fun i s d h => ⟨?_, fun t ht => ?_⟩
  · exact exec_eq_onNext (duty_congr rfl rfl rfl) rfl (effect_setDraws s d h)
  · obtain ⟨-, rfl⟩ := exec_eq_next_iff.mp ht
    exact effect_draws s h

/-! ### Memory (R52, R59) -/

/-- The bytes of a block are those of every memory that agrees on the block. -/
theorem Memory.readBytes_congr {m n : Memory} {a k : Nat}
    (h : ∀ b, a ≤ b → b < a + k → m.read b = n.read b) : m.readBytes a k = n.readBytes a k :=
  List.map_congr_left fun j hj => h (a + j) (by omega) (by have := List.mem_range.mp hj; omega)

/-- A register block whose last address is in range ends inside memory. -/
theorem firstRegs_inside {x : Nibble} {s : State} (h : s.index.toNat + x.toNat ≤ 0xFFF) :
    s.index.toNat + (s.firstRegs x).length ≤ 0x1000 := by
  rw [State.firstRegs_length]
  omega

/-- An instruction whose duty holds writes the bytes of its stored range only. -/
theorem effect_memory_read {s : State} {a : Nat} (hduty : duty i s) (h : ¬ writesCell i s a) :
    (effect i s).memory.read a = s.memory.read a := by
  cases i
  case ldB x =>
    have hin : s.index.toNat + (bcdDigits (s.getReg x)).length ≤ 0x1000 := Nat.succ_le_succ hduty
    refine (Memory.read_writeBytes _ _ _ _ hin).trans (dif_neg fun ⟨hlow, hhigh⟩ => ?_)
    exact h ⟨hlow, Nat.le_of_lt_succ hhigh⟩
  case storeRegs x =>
    refine (Memory.read_writeBytes _ _ _ _ (firstRegs_inside hduty)).trans
      (dif_neg fun ⟨hlow, hhigh⟩ => ?_)
    rw [State.firstRegs_length] at hhigh
    exact h ⟨hlow, Nat.le_of_lt_succ hhigh⟩
  case loadRegs => exact congrArg (Memory.read · a) (State.setFirstRegs_memory s _)
  all_goals rfl

/-- From a memory that agrees on the bytes an instruction reads, its effect differs in memory
only. -/
theorem effect_setMemory (s : State) (m : Memory)
    (h : ∀ a, readsCell i s a → m.read a = s.memory.read a) :
    ∃ m', effect i { s with memory := m } = { effect i s with memory := m' } := by
  cases i
  case drw x y n =>
    have hbytes := Memory.readBytes_congr (k := n.toNat) fun b hb hb' => h b ⟨hb, hb'⟩
    exact ⟨m, by simp only [effect, hbytes]; rfl⟩
  case loadRegs x =>
    have hbytes := Memory.readBytes_congr (k := x.toNat + 1) fun b hb hb' =>
      h b ⟨hb, Nat.le_of_lt_succ hb'⟩
    exact ⟨m, by simp only [effect, hbytes]; rfl⟩
  all_goals exact ⟨_, rfl⟩

/-- The fetch depends on pc and on the two bytes it reads. -/
theorem fetch_setMemory (s : State) (m : Memory)
    (hhi : m.read s.pc.toNat = s.memory.read s.pc.toNat)
    (hlo : m.read (s.pc.toNat + 1) = s.memory.read (s.pc.toNat + 1)) :
    ({ s with memory := m } : State).fetch = s.fetch := by
  simp only [State.fetch, hhi, hlo]

/-- Settles O23, by the stored range, the read range and the two fetched bytes. -/
theorem memoryTraffic : Obligations.MemoryTraffic := by
  refine ⟨fun i s t a ht h => ?_, fun i s m h => ?_, fetch_setMemory⟩
  · obtain ⟨hduty, rfl⟩ := exec_eq_next_iff.mp ht
    exact effect_memory_read hduty h
  · obtain ⟨m', heffect⟩ := effect_setMemory s m h
    refine exec_alike (duty_congr rfl rfl rfl) rfl fun _ p hp => ?_
    rw [heffect]
    exact Piece.value_setMemory hp _ m'

end Sys2Proof.Machine
end

