-- ==== Sys2Proof/Proofs/RegisterAccess.lean ====
section
/-! PROOFS. Which instruction reads and writes which general register (spec/10_state.md R23, R24).
Reading is put as a relation of two runs: the state with another value in a register, and what an
update that does not read that register makes of the pair. -/

namespace Sys2Proof.Machine

variable {i : Instr}

/-! ### Writers (R23) -/

/-- A register no write names keeps its value. -/
theorem State.getReg_setReg_of_ne {s : State} {x r : Nibble} {v : Byte} (h : r ≠ x) :
    (s.setReg x v).getReg r = s.getReg r := by
  rw [State.getReg_setReg, if_neg h]

/-- A block load leaves the registers above the block. -/
theorem State.getReg_setFirstRegs_of_le {s : State} {bytes : List Byte} {r : Nibble}
    (h : bytes.length ≤ r.toNat) : (s.setFirstRegs bytes).getReg r = s.getReg r := by
  rw [State.getReg_setFirstRegs, List.getElem?_eq_none h, Option.getD_none]

/-- An effect writes no register but those listed for it. -/
theorem effect_getReg {s : State} {r : Nibble} (h : ¬ mayWrite i r) :
    (effect i s).getReg r = s.getReg r := by
  cases i
  case ldImm | addImm | ldReg | orReg | andReg | xorReg | rnd | ldVxDt | ldVxK =>
    exact State.getReg_setReg_of_ne h
  case addReg | subReg | shr | subn | shl =>
    obtain ⟨hx, hF⟩ := not_or.mp h
    exact (State.getReg_setReg_of_ne hF).trans (State.getReg_setReg_of_ne hx)
  case drw => exact State.getReg_setReg_of_ne h
  case loadRegs x =>
    exact State.getReg_setFirstRegs_of_le (by rw [Memory.readBytes_length]; exact not_le.mp h)
  all_goals rfl

/-- Settles O21, by the register writes each effect is made of. -/
theorem registerWriters : Obligations.RegisterWriters := by
  intro i s t r ht h
  obtain ⟨-, rfl⟩ := exec_eq_next_iff.mp ht
  exact effect_getReg h

/-! ### Readers (R24) -/

/-- `u` is `t` but for the value `v` in register `r`, which `t` has kept since `s`, or the two are
the same: what may come of the states `s` and `s.setReg r v`. -/
def SameBut (r : Nibble) (v : Byte) (s t u : State) : Prop :=
  u = t ∨ u = t.setReg r v ∧ t.getReg r = s.getReg r

variable {r : Nibble} {v : Byte} {s t u : State}

/-- The two states one starts from. -/
theorem SameBut.refl : SameBut r v s s (s.setReg r v) := .inr ⟨rfl, rfl⟩

/-- Two writes of one register leave the second. -/
theorem State.setReg_setReg_self (s : State) (x : Nibble) (v w : Byte) :
    (s.setReg x v).setReg x w = s.setReg x w := by
  simp [State.setReg, Vector.set_set]

/-- Writes of different registers commute. -/
theorem State.setReg_comm (s : State) {x y : Nibble} (v w : Byte) (h : x ≠ y) :
    (s.setReg x v).setReg y w = (s.setReg y w).setReg x v := by
  have hne : x.toNat ≠ y.toNat := fun hxy => h (BitVec.eq_of_toNat_eq hxy)
  simp only [State.setReg]
  rw [Vector.set_comm _ _ hne]

/-- The same write of a register keeps the relation: it makes the states equal when it writes the
register they differ in. -/
theorem SameBut.setReg (x : Nibble) (w : Byte) (h : SameBut r v s t u) :
    SameBut r v s (t.setReg x w) (u.setReg x w) := by
  obtain rfl | ⟨rfl, hr⟩ := h
  · exact .inl rfl
  by_cases hrx : r = x
  · subst hrx
    exact .inl (State.setReg_setReg_self t r v w)
  · exact .inr ⟨State.setReg_comm t v w hrx, (State.getReg_setReg_of_ne hrx).trans hr⟩

/-- The relation is the one of the statement about readers. -/
theorem SameBut.changesOnly (h : SameBut r v s t u) :
    ChangesOnly (fun p => p = .reg r) t u ∧
      (u.getReg r = t.getReg r ∨ t.getReg r = s.getReg r ∧ u.getReg r = v) := by
  obtain rfl | ⟨rfl, hr⟩ := h
  · exact ⟨fun _ _ => rfl, .inl rfl⟩
  · exact ⟨changesOnly_setReg t r v, .inr ⟨hr, State.getReg_setReg_self t r v⟩⟩

/-- No duty depends on a register the instruction does not read. -/
theorem duty_setReg (h : ¬ readsReg i r) : duty i (s.setReg r v) ↔ duty i s := by
  cases i
  case skp x | sknp x | ldF x =>
    simp only [duty, State.getReg_setReg_of_ne (Ne.symm h)]
  all_goals exact Iff.rfl

/-- The block V0..Vx does not hold a register above Vx. -/
theorem State.firstRegs_setReg_of_lt {x : Nibble} (s : State) (v : Byte) (h : x.toNat < r.toNat) :
    (s.setReg r v).firstRegs x = s.firstRegs x := by
  rw [State.firstRegs, State.setReg_registers, Vector.toList_set, List.take_set_of_le (by omega)]
  rfl

/-- Register files are equal when all their registers are. -/
theorem State.registers_ext {s t : State} (h : ∀ z, s.getReg z = t.getReg z) :
    s.registers = t.registers := by
  ext k hk : 1
  simpa [State.getReg, Nat.mod_eq_of_lt hk] using h (BitVec.ofNat 4 k)

/-- A block load makes a register of its block forget what it held, and leaves the others. -/
theorem SameBut.setFirstRegs (s : State) (v : Byte) (bytes : List Byte) :
    SameBut r v s (s.setFirstRegs bytes) ((s.setReg r v).setFirstRegs bytes) := by
  by_cases hr : r.toNat < bytes.length
  · have hregs : ((s.setReg r v).setFirstRegs bytes).registers =
        (s.setFirstRegs bytes).registers := State.registers_ext fun z => by
      rw [State.getReg_setFirstRegs, State.getReg_setFirstRegs, State.getReg_setReg]
      split
      case isTrue hz => rw [hz, List.getElem?_eq_getElem hr, Option.getD_some, Option.getD_some]
      case isFalse => rfl
    exact .inl (congrArg (fun regs => { s with registers := regs }) hregs)
  · have hr := not_lt.mp hr
    have hregs : ((s.setReg r v).setFirstRegs bytes).registers =
        ((s.setFirstRegs bytes).setReg r v).registers := State.registers_ext fun z => by
      rw [State.getReg_setFirstRegs, State.getReg_setReg, State.getReg_setReg,
        State.getReg_setFirstRegs]
      split
      case isTrue hz => rw [hz, List.getElem?_eq_none hr, Option.getD_none]
      case isFalse => rfl
    exact .inr ⟨congrArg (fun regs => { s with registers := regs }) hregs,
      State.getReg_setFirstRegs_of_le hr⟩

/-- An effect that does not read a register keeps the relation: it reads the same values, and then
makes the same updates of both states. -/
theorem effect_sameBut (s : State) (v : Byte) (h : ¬ readsReg i r) :
    SameBut r v s (effect i s) (effect i (s.setReg r v)) := by
  have hread : ∀ z, readsReg i z → (s.setReg r v).getReg z = s.getReg z := fun z hz =>
    State.getReg_setReg_of_ne fun hzr => h (hzr ▸ hz)
  cases i
  case seImm x _ | sneImm x _ | skp x | sknp x | ldDtVx x | ldStVx x | addI x | ldF x | ldB x =>
    simp only [effect, State.keyPressed, hread x rfl]
    exact .inr ⟨rfl, rfl⟩
  case jpV0 nnn =>
    simp only [effect, hread 0x0#4 rfl]
    exact .inr ⟨rfl, rfl⟩
  case seReg x y | sneReg x y =>
    simp only [effect, hread x (Or.inl rfl), hread y (Or.inr rfl)]
    exact .inr ⟨rfl, rfl⟩
  case addImm x _ =>
    simp only [effect, hread x rfl]
    exact SameBut.refl.setReg x _
  case ldReg x y =>
    simp only [effect, hread y rfl]
    exact SameBut.refl.setReg x _
  case orReg x y | andReg x y | xorReg x y =>
    simp only [effect, hread x (Or.inl rfl), hread y (Or.inr rfl)]
    exact SameBut.refl.setReg x _
  case addReg x y | subReg x y | subn x y =>
    simp only [effect, hread x (Or.inl rfl), hread y (Or.inr rfl)]
    exact (SameBut.refl.setReg x _).setReg 0xF#4 _
  case shr x _ | shl x _ =>
    simp only [effect, hread x rfl]
    exact (SameBut.refl.setReg x _).setReg 0xF#4 _
  case drw x y n =>
    simp only [effect, hread x (Or.inl rfl), hread y (Or.inr rfl)]
    exact SameBut.setReg 0xF#4 _ (.inr ⟨rfl, rfl⟩)
  case ldImm x _ | ldVxDt x => exact SameBut.refl.setReg x _
  case rnd x _ => exact SameBut.setReg (t := { s with draws := s.draws + 1 }) x _ (.inr ⟨rfl, rfl⟩)
  case ldVxK x =>
    have hkey : (s.setReg r v).leastPressedKey = s.leastPressedKey := rfl
    simp only [effect, hkey]
    cases s.leastPressedKey
    case none =>
      simp only [Option.map_none, Option.getD_none, State.setReg_getReg]
      exact .inr ⟨rfl, rfl⟩
    case some k => exact SameBut.setReg (t := s.jump _) x _ (.inr ⟨rfl, rfl⟩)
  case storeRegs x =>
    simp only [effect, State.firstRegs_setReg_of_lt s v (not_le.mp h)]
    exact .inr ⟨rfl, rfl⟩
  case loadRegs x => exact SameBut.setFirstRegs s v _
  all_goals exact .inr ⟨rfl, rfl⟩

/-- Settles O22, by the relation of the two effects. -/
theorem registerReaders : Obligations.RegisterReaders := fun _ s _ v h =>
  exec_alike (duty_setReg h) rfl fun _ => (effect_sameBut s v h).changesOnly

end Sys2Proof.Machine
end

