-- ==== Sys2Proof/Proofs/DrawSprite.lean ====
section
/-! PROOFS. `DXYN` (spec/41_display.md R111, R112): the pixels of a sprite are those it covers,
drawing XORs them, and drawing twice gives them back. -/

namespace Sys2Proof.Machine

/-! ### The pixels of a sprite -/

/-- The pixel at a column and a row of the display, as an index. -/
theorem pixelIndex_eq_iff {c r c' r' : Nat} (hc : c < 64) :
    pixelIndex c' r' = c + r * 64 ↔ c' % 64 = c ∧ r' % 32 = r := by
  unfold pixelIndex
  omega

/-- A sprite's list of pixels holds the pixel at a column and a row exactly when the sprite covers
it: the bit over the pixel is the one that many columns and rows from the sprite's corner, around
the edges. -/
theorem mem_spritePixels_iff_covers {m : Memory} {a n : Nat} {vx vy : Byte} {c r : Nat}
    (hc : c < 64) (hr : r < 32) (hn : n ≤ 32) :
    c + r * 64 ∈ spritePixels (m.readBytes a n) vx.toNat vy.toNat ↔
      spriteCovers m a n vx vy c r = true := by
  rw [mem_spritePixels]
  simp only [Memory.readBytes_length, Memory.readBytes_getElem, pixelIndex_eq_iff hc,
    spriteCovers, Bool.and_eq_true, decide_eq_true_eq]
  constructor
  · rintro ⟨i, hi, j, hj, hbit, hcol, hrow⟩
    obtain rfl : i = (r + 32 - vy.toNat % 32) % 32 := by omega
    obtain rfl : j = (c + 64 - vx.toNat % 64) % 64 := by omega
    exact ⟨⟨hi, hj⟩, hbit⟩
  · rintro ⟨⟨hi, hj⟩, hbit⟩
    exact ⟨_, hi, _, hj, hbit, by omega, by omega⟩

/-- A pixel of a sprite with some property is a covered place of the display with it. -/
theorem exists_mem_spritePixels_iff {m : Memory} {a n : Nat} {vx vy : Byte} (hn : n ≤ 32)
    (P : Nat → Prop) :
    (∃ k ∈ spritePixels (m.readBytes a n) vx.toNat vy.toNat, P k) ↔
      ∃ c < 64, ∃ r < 32, P (c + r * 64) ∧ spriteCovers m a n vx vy c r = true := by
  constructor
  · rintro ⟨k, hk, hP⟩
    have hlt := spritePixels_lt _ _ _ _ hk
    have hdiv : k % 64 + k / 64 * 64 = k := by omega
    rw [← hdiv] at hk hP
    exact ⟨k % 64, by omega, k / 64, by omega, hP,
      (mem_spritePixels_iff_covers (by omega) (by omega) hn).mp hk⟩
  · rintro ⟨c, hc, r, hr, hP, hcov⟩
    exact ⟨_, (mem_spritePixels_iff_covers hc hr hn).mpr hcov, hP⟩

/-! ### One draw -/

section
variable (s : State) (bytes : List Byte) (vx vy : Byte)

/-- A draw XORs the pixels of the sprite. -/
theorem drawSprite_pixel (h : bytes.length ≤ 32) (k : Nat) :
    (s.drawSprite bytes vx vy).framebuffer.pixel k =
      (s.framebuffer.pixel k ^^ decide (k ∈ spritePixels bytes vx.toNat vy.toNat)) :=
  flipPixels_pixel _ _ _ _ (spritePixels_lt bytes _ _) (spritePixels_nodup bytes _ _ h)

/-- A draw leaves in VF whether a pixel of the sprite was set. -/
theorem drawSprite_flag (h : bytes.length ≤ 32) :
    (s.drawSprite bytes vx vy).getReg 0xF#4 =
      flagByte ((spritePixels bytes vx.toNat vy.toNat).any s.framebuffer.pixel) := by
  rw [State.getReg_drawSprite, if_pos rfl, flipPixels_hit _ _ _ (spritePixels_lt bytes _ _)
    (spritePixels_nodup bytes _ _ h), Bool.false_or]

/-- A draw leaves every register but VF. -/
theorem drawSprite_getReg_of_ne {r : Nibble} (h : r ≠ 0xF#4) :
    (s.drawSprite bytes vx vy).getReg r = s.getReg r := by
  rw [State.getReg_drawSprite, if_neg h]

/-- There is no pixel past the last one. -/
theorem Framebuffer.pixel_of_le (fb : Framebuffer) {k : Nat} (h : 2048 ≤ k) : fb.pixel k = false :=
  BitVec.getLsbD_of_ge fb k h

/-- A draw changes VF and pixels only. -/
theorem changesOnly_drawSprite :
    ChangesOnly (fun p => p = .reg 0xF#4 ∨ ∃ k < 2048, p = .pixel k) s
      (s.drawSprite bytes vx vy) := by
  intro p hp
  cases p
  case reg r =>
    have hr : r ≠ 0xF#4 := fun hr => hp (.inl (congrArg Piece.reg hr))
    exact congrArg BitVec.toNat (drawSprite_getReg_of_ne s bytes vx vy hr)
  case pixel k =>
    have hk : 2048 ≤ k := not_lt.mp fun hk => hp (.inr ⟨k, hk, rfl⟩)
    simp only [Piece.value, Framebuffer.pixel_of_le _ hk]
  all_goals rfl

end

/-- VF is 1 exactly when the flag is raised. -/
theorem flagByte_eq_one_iff {c : Bool} : flagByte c = 1#8 ↔ c = true := by
  cases c <;> decide

/-- VF is 1 or 0 after every write of a flag. -/
theorem flagByte_eq_one_or_zero (c : Bool) : flagByte c = 1#8 ∨ flagByte c = 0#8 := by
  cases c <;> decide

/-! ### `DXYN` -/

section
variable (x y n : Nibble) (s : State)

/-- The rows of a sprite, at most 15, do not wrap onto one another. -/
theorem spriteRows_le : n.toNat ≤ 32 := by
  have := n.isLt
  omega

/-- Nor do the rows of the bytes read for it. -/
theorem length_sprite_le (m : Memory) (a : Nat) : (m.readBytes a n.toNat).length ≤ 32 := by
  rw [Memory.readBytes_length]
  exact spriteRows_le n

/-- `DXYN` XORs the pixel at each column and row with the sprite's bit over it. -/
theorem effect_drw_pixelAt {c r : Nat} (hc : c < 64) (hr : r < 32) :
    (effect (.drw x y n) s).pixelAt c r = (s.pixelAt c r ^^
      spriteCovers s.memory s.index.toNat n.toNat (s.getReg x) (s.getReg y) c r) := by
  have hcovers := mem_spritePixels_iff_covers (m := s.memory) (a := s.index.toNat) (n := n.toNat)
    (vx := s.getReg x) (vy := s.getReg y) hc hr (spriteRows_le n)
  refine (drawSprite_pixel s _ _ _ (length_sprite_le n _ _) _).trans ?_
  simp only [hcovers, Bool.decide_eq_true]
  rfl

/-- `DXYN` sets VF exactly when a covered pixel was set. -/
theorem effect_drw_flag_iff :
    (effect (.drw x y n) s).getReg 0xF#4 = 1#8 ↔ ∃ c < 64, ∃ r < 32, s.pixelAt c r = true ∧
      spriteCovers s.memory s.index.toNat n.toNat (s.getReg x) (s.getReg y) c r = true := by
  have hflag : (effect (.drw x y n) s).getReg 0xF#4 = flagByte _ :=
    drawSprite_flag s _ _ _ (length_sprite_le n _ _)
  rw [hflag, flagByte_eq_one_iff, List.any_eq_true]
  exact exists_mem_spritePixels_iff (spriteRows_le n) fun k => s.framebuffer.pixel k = true

end

/-- Settles O30, by the pixels and the flag of one draw. -/
theorem drawSprite : Obligations.DrawSprite := by
  refine fun x y n s => ⟨decodeWord_familyD x y n, fun hin => ?_, fun hn hout => ?_⟩
  · refine ⟨_, exec_of_duty hin, fun c r => effect_drw_pixelAt x y n s, ?_,
      effect_drw_flag_iff x y n s, changesOnly_drawSprite s _ _ _⟩
    rw [effect, drawSprite_flag s _ _ _ (length_sprite_le n _ _)]
    exact flagByte_eq_one_or_zero _
  · exact exec_of_not_duty (by simp only [duty]; omega) rfl

/-! ### Two draws -/

/-- With X and Y not 15 the second `DXYN` draws the same sprite at the same place. -/
theorem effect_drw_twice {x y n : Nibble} (s : State) (hx : x ≠ 0xF#4) (hy : y ≠ 0xF#4) :
    effect (.drw x y n) (effect (.drw x y n) s) =
      (effect (.drw x y n) s).drawSprite (s.memory.readBytes s.index.toNat n.toNat) (s.getReg x)
        (s.getReg y) := by
  have hmem : (effect (.drw x y n) s).memory = s.memory := rfl
  have hindex : (effect (.drw x y n) s).index = s.index := rfl
  have hvx : (effect (.drw x y n) s).getReg x = s.getReg x := drawSprite_getReg_of_ne s _ _ _ hx
  have hvy : (effect (.drw x y n) s).getReg y = s.getReg y := drawSprite_getReg_of_ne s _ _ _ hy
  conv_lhs => rw [effect, hmem, hindex, hvx, hvy]

/-- Settles O31: XOR twice gives a pixel back, and between the draws a pixel of the sprite is set
exactly when it was clear. -/
theorem drawTwiceRestores : Obligations.DrawTwiceRestores := by
  intro x y n s hx hy hin
  have hlen := length_sprite_le n s.memory s.index.toNat
  refine ⟨_, _, exec_of_duty hin, exec_of_duty hin, fun k => ?_, ?_⟩
  · rw [effect_drw_twice s hx hy, drawSprite_pixel _ _ _ _ hlen, effect,
      drawSprite_pixel _ _ _ _ hlen, Bool.xor_assoc, Bool.xor_self, Bool.xor_false]
  · rw [effect_drw_twice s hx hy, drawSprite_flag _ _ _ _ hlen, flagByte_eq_one_iff,
      List.any_eq_true, effect]
    refine Iff.trans (exists_congr fun k => and_congr_right fun hk => ?_)
      (exists_mem_spritePixels_iff (spriteRows_le n) fun k => s.framebuffer.pixel k = false)
    rw [drawSprite_pixel _ _ _ _ hlen, decide_eq_true hk, Bool.xor_true, Bool.not_eq_true']

end Sys2Proof.Machine
end

