-- ==== Sys2Proof/Proofs/MemoryBlocks.lean ====
section
/-! PROOFS. The instructions that store a block to memory or load one (spec/45_index_and_memory.md
R163 to R165): the bytes they store, the registers they load, and a store followed by a load. -/

namespace Sys2Proof.Machine

/-! ### Decimal digits (R163) -/

/-- The digits of a byte are at most 2, 9 and 9, and give the byte back. -/
theorem bcdDigits_spec (v : Byte) : ∃ hundreds tens ones : Byte,
    bcdDigits v = [hundreds, tens, ones] ∧ hundreds.toNat ≤ 2 ∧ tens.toNat ≤ 9 ∧ ones.toNat ≤ 9 ∧
      100 * hundreds.toNat + 10 * tens.toNat + ones.toNat = v.toNat := by
  have := v.isLt
  refine ⟨_, _, _, rfl, ?_⟩
  simp only [BitVec.toNat_ofNat]
  omega

/-- Settles O53: the three digits are read back at their addresses, and the stored block is the
frame. -/
theorem storeDecimalDigits : Obligations.StoreDecimalDigits := by
  refine fun x s => ⟨decodeWord_encode (.ldB x), fun h => ?_, fun h => ?_⟩
  · obtain ⟨hundreds, tens, ones, hdigits, hspec⟩ := bcdDigits_spec (s.getReg x)
    have hin : s.index.toNat + [hundreds, tens, ones].length ≤ 0x1000 := Nat.succ_le_succ h
    have hread := Memory.read_writeBytes_add s.memory _ _ hin
    refine ⟨_, exec_of_duty h, ?_⟩
    simp only [effect, hdigits]
    have h0 := hread 0 (by simp)
    have h1 := hread 1 (by simp)
    have h2 := hread 2 (by simp)
    rw [Nat.add_zero] at h0
    rw [h0, h1, h2]
    obtain ⟨hhundreds, htens, hones, hsum⟩ := hspec
    exact ⟨hhundreds, htens, hones, hsum, (changesOnly_writeBytes s _ _ hin).mono
      fun p ⟨k, hk, hp⟩ => ⟨k, Nat.le_of_lt_succ hk, hp⟩⟩
  · exact exec_of_not_duty (not_le.mpr h) rfl

/-! ### Register blocks (R164, R165) -/

/-- A block load changes as many registers as it has bytes (R165). -/
theorem changesOnly_setFirstRegs (s : State) (bytes : List Byte) :
    ChangesOnly (fun p => ∃ r : Nibble, r.toNat < bytes.length ∧ p = .reg r) s
      (s.setFirstRegs bytes) := by
  intro p hp
  cases p
  case reg r =>
    have hr : bytes.length ≤ r.toNat := not_lt.mp fun hr => hp ⟨r, hr, rfl⟩
    exact congrArg BitVec.toNat (State.getReg_setFirstRegs_of_le hr)
  all_goals simp [Piece.value]

section
variable {x : Nibble} {s : State}

/-- `FX55` puts each register of its block at its place. -/
theorem effect_storeRegs_read (h : s.index.toNat + x.toNat ≤ 0xFFF) {r : Nibble}
    (hr : r.toNat ≤ x.toNat) :
    (effect (.storeRegs x) s).memory.read (s.index.toNat + r.toNat) = s.getReg r := by
  have hlt : r.toNat < (s.firstRegs x).length := by
    rw [State.firstRegs_length]
    omega
  exact (Memory.read_writeBytes_add _ _ _ (firstRegs_inside h) _ hlt).trans
    (State.firstRegs_getElem s x _ hlt)

/-- `FX65` puts each byte of its block in its register. -/
theorem effect_loadRegs_getReg_of_le {r : Nibble} (hr : r.toNat ≤ x.toNat) :
    (effect (.loadRegs x) s).getReg r = s.memory.read (s.index.toNat + r.toNat) := by
  have hlt : r.toNat < (s.memory.readBytes s.index.toNat (x.toNat + 1)).length := by
    rw [Memory.readBytes_length]
    omega
  rw [effect, State.getReg_setFirstRegs, List.getElem?_eq_getElem hlt, Option.getD_some,
    Memory.readBytes_getElem]

end

/-- Settles O54: each register is read back at its place, and the stored block is the frame. -/
theorem storeRegisterBlock : Obligations.StoreRegisterBlock := by
  refine fun x s => ⟨decodeWord_encode (.storeRegs x), fun h => ?_, fun h => ?_⟩
  · refine ⟨_, exec_of_duty h, fun r => effect_storeRegs_read h,
      (changesOnly_writeBytes s _ _ (firstRegs_inside h)).mono fun p ⟨k, hk, hp⟩ => ⟨k, ?_, hp⟩⟩
    rw [State.firstRegs_length] at hk
    exact Nat.le_of_lt_succ hk
  · exact exec_of_not_duty (not_le.mpr h) rfl

/-- Settles O55: each byte is in its register, and the loaded block is the frame. -/
theorem loadRegisterBlock : Obligations.LoadRegisterBlock := by
  refine fun x s => ⟨decodeWord_encode (.loadRegs x), fun h => ?_, fun h => ?_⟩
  · refine ⟨_, exec_of_duty h, fun _ => effect_loadRegs_getReg_of_le,
      (changesOnly_setFirstRegs s _).mono fun p ⟨r, hr, hp⟩ => ⟨r, ?_, hp⟩⟩
    rw [Memory.readBytes_length] at hr
    exact Nat.le_of_lt_succ hr
  · exact exec_of_not_duty (not_le.mpr h) rfl

/-- Settles O56: a register of the block comes back from the bytes the store put in memory, one
above the block was left alone. -/
theorem storeThenLoadRestores : Obligations.StoreThenLoadRestores := by
  intro x s h
  refine ⟨_, exec_of_duty h, fun scratch hscratch => ⟨_, exec_of_duty h, fun r => ?_, rfl⟩⟩
  by_cases hr : r.toNat ≤ x.toNat
  · exact (effect_loadRegs_getReg_of_le hr).trans (effect_storeRegs_read h hr)
  · exact (effect_getReg (i := .loadRegs x) hr).trans (hscratch r (not_le.mp hr))

end Sys2Proof.Machine
end

