-- ==== Sys2Proof/Proofs/ControlAndKeys.lean ====
section
/-! PROOFS. A call and the return from it (spec/42_control_flow.md), the skips on registers and keys
(spec/43_skips.md R133 to R136), the wait for a key and the sound timer
(spec/46_timers_and_keywait.md R171, R173), and the glyph of a digit (spec/45_index_and_memory.md
R162). -/

namespace Sys2Proof.Machine

/-! ### Call and return -/

/-- Settles O36: the pop gives back the pc and the sp the push saved, and leaves its slot. -/
theorem callThenReturn : Obligations.CallThenReturn := by
  intro nnn s h
  refine ⟨_, _, exec_call_of_push nnn (State.push_of_room s h),
    exec_ret_of_pop (State.pop_of_some _ (Nat.succ_pos s.sp.val)), Vector.getElem_set_self h, rfl,
    fun p hp => ?_⟩
  cases p
  case pc => exact congrArg BitVec.toNat (Vector.getElem_set_self h)
  case slot k =>
    have hk : s.sp.val ≠ k.val := fun hk => hp (congrArg Piece.slot (Fin.ext hk.symm))
    exact congrArg BitVec.toNat (Vector.getElem_set_ne h k.isLt hk)
  all_goals rfl

/-! ### Skips on registers and keys -/

/-- Settles O39, by the frame of a skip and its pc on equal and on different bytes. -/
theorem skipOnRegisters : Obligations.SkipOnRegisters := fun x y n s =>
  ⟨decodeWord_family5 x y n, decodeWord_family9 x y n,
    ⟨s.skipIf (s.getReg x == s.getReg y), rfl, State.skipIf_beq_pc s _ _, changesOnly_skipIf s _⟩,
    ⟨s.skipIf (s.getReg x != s.getReg y), rfl, State.skipIf_bne_pc s _ _, changesOnly_skipIf s _⟩⟩

/-- Settles O40: a number of at most 15 names a key, whose state is the condition of the skip. -/
theorem skipOnKey : Obligations.SkipOnKey := by
  refine fun x s => ⟨decodeWord_encode (.skp x), decodeWord_encode (.sknp x), fun h => ?_,
    fun h => ⟨exec_of_not_duty (not_le.mpr h) rfl, exec_of_not_duty (not_le.mpr h) rfl⟩⟩
  have hkey : s.keyPressed (s.getReg x) = some s.keypad[(s.getReg x).toNat] :=
    State.keyPressed_eq_some.mpr ⟨by omega, rfl⟩
  refine ⟨⟨_, exec_of_duty h, ?_, changesOnly_jump s _⟩,
    ⟨_, exec_of_duty h, ?_, changesOnly_jump s _⟩⟩
  · simp only [effect, hkey, State.jump_pc, Option.some.injEq]
  · simp only [effect, hkey, State.jump_pc, Option.some.injEq, ← Bool.not_eq_true, ite_not]

/-! ### The wait for a key -/

/-- Settles O58: the two outcomes of the search for the least pressed key. -/
theorem waitForKey : Obligations.WaitForKey := by
  refine fun x s => ⟨decodeWord_encode (.ldVxK x), fun k hk hlow => ?_, fun hnone => ?_⟩
  · have hkey : s.leastPressedKey = some k.val :=
      State.leastPressedKey_eq_some.mpr ⟨k.isLt, hk, fun j hj => hlow ⟨j, by omega⟩ hj⟩
    refine ⟨s.setReg x (BitVec.ofNat 8 k.val), by simp only [exec, execLdVxK, hkey], ?_,
      changesOnly_setReg s x _⟩
    rw [State.getReg_setReg_self, BitVec.toNat_ofNat]
    omega
  · have hkey : s.leastPressedKey = none :=
      State.leastPressedKey_eq_none.mpr fun j hj => hnone ⟨j, hj⟩
    exact ⟨s.repeatInstr, by simp only [exec, execLdVxK, hkey], rfl, changesOnly_jump s _⟩

/-! ### Glyphs -/

/-- Settles O52: the address of a digit's glyph is at most 75, which 16 bits hold. -/
theorem pointAtGlyph : Obligations.PointAtGlyph := by
  refine fun x s => ⟨decodeWord_encode (.ldF x), fun h => ⟨_, exec_of_duty h, ?_,
    changesOnly_setIndex s _⟩, fun h => exec_of_not_duty (not_le.mpr h) rfl⟩
  rw [effect, State.setIndex_index, BitVec.toNat_ofNat]
  omega

/-! ### The sound timer -/

/-- A write of ST changes ST only (R31). -/
theorem changesOnly_setSound (s : State) (v : Byte) :
    ChangesOnly (· = .soundTimer) s (s.setSound v) := by
  intro p hp
  cases p
  case soundTimer => exact absurd rfl hp
  all_goals rfl

/-- Settles O60: the countdown of the same step reads the value just written. -/
theorem setSoundTimer : Obligations.SetSoundTimer := by
  refine fun x s => ⟨decodeWord_encode (.ldStVx x), ⟨s.setSound (s.getReg x), rfl, rfl,
    countDown_toNat (s.getReg x), changesOnly_setSound s _⟩, fun p hf => ?_⟩
  have hphase : executePhase p = .next (p.advance.setSound (p.getReg x)) :=
    executePhase_of_decode hf (decodeWord_encode (.ldStVx x))
  rw [hostStep_of_executePhase_next hphase, State.soundExpires_eq_decide, State.setSound_soundTimer]

end Sys2Proof.Machine
end

