-- ==== Sys2Proof/Proofs/AluFlags.lean ====
section
/-! PROOFS. The ALU instructions of family 8 and the random byte (spec/44_alu.md R145 to R154): the
result in Vx, the flag in VF written after it, and the arithmetic of both. -/

namespace Sys2Proof.Machine

/-! ### Logic and the random byte -/

/-- Settles O44: the operators of bit vectors are bitwise, and a register write leaves VF. -/
theorem logicOfRegisters : Obligations.LogicOfRegisters := fun x y s =>
  ⟨decodeWord_encode (.orReg x y), decodeWord_encode (.andReg x y), decodeWord_encode (.xorReg x y),
    ⟨s.setReg x (s.getReg x ||| s.getReg y), rfl, by simp, changesOnly_setReg s x _⟩,
    ⟨s.setReg x (s.getReg x &&& s.getReg y), rfl, by simp, changesOnly_setReg s x _⟩,
    ⟨s.setReg x (s.getReg x ^^^ s.getReg y), rfl, by simp, changesOnly_setReg s x _⟩⟩

/-- `CXNN` changes its register and the count of random bytes. -/
theorem changesOnly_rndWith (rnd : Byte) (x : Nibble) (nn : Byte) (s : State) :
    ChangesOnly (fun p => p = .reg x ∨ p = .draws) s (rndWith rnd x nn s) := by
  have hdraws : ChangesOnly (· = .draws) (s.setReg x (rnd &&& nn)) (rndWith rnd x nn s) :=
    fun _ hp => Piece.value_setDraws hp (s.setReg x (rnd &&& nn)) (s.draws + 1)
  exact (changesOnly_setReg s x _).trans hdraws

/-- Settles O49: the byte is `Config.rnd` at the count, which stands for every byte. -/
theorem randomByteMasked : Obligations.RandomByteMasked := by
  refine fun x nn s => ⟨decodeWord_encode (.rnd x nn), rndWith (Config.rnd s.draws) x nn s, rfl,
    fun j => ?_, rfl, changesOnly_rndWith _ x nn s⟩
  have hreg : (rndWith (Config.rnd s.draws) x nn s).getReg x = Config.rnd s.draws &&& nn :=
    State.getReg_setReg_self s x _
  rw [hreg, BitVec.getLsbD_and]

/-! ### A result and its flag (R143) -/

/-- VF holds the flag whatever X is: it is written last. -/
theorem setResultFlag_flag_toNat (s : State) (x : Nibble) (v : Byte) (c : Bool) :
    ((s.setResultFlag x v c).getReg 0xF#4).toNat = c.toNat := by
  rw [State.getReg_setResultFlag, if_pos rfl]
  cases c <;> rfl

/-- Vx holds the result unless it is VF. -/
theorem setResultFlag_result {x : Nibble} (s : State) (v : Byte) (c : Bool) (h : x ≠ 0xF#4) :
    (s.setResultFlag x v c).getReg x = v := by
  rw [State.getReg_setResultFlag, if_neg h, if_pos rfl]

/-- A result and its flag change Vx and VF only. -/
theorem changesOnly_setResultFlag (s : State) (x : Nibble) (v : Byte) (c : Bool) :
    ChangesOnly (fun p => p = .reg x ∨ p = .reg 0xF#4) s (s.setResultFlag x v c) :=
  (changesOnly_setReg s x v).trans (changesOnly_setReg _ 0xF#4 _)

/-- An instruction that answers a result and its flag leaves the flag as a number in VF and the
result as a number in Vx, and changes nothing else. -/
theorem exec_resultFlag {i : Instr} {s : State} {x : Nibble} {v : Byte} {c : Bool}
    {flag result : Nat} (hexec : exec i s = .next (s.setResultFlag x v c)) (hc : c.toNat = flag)
    (hv : v.toNat = result) :
    ∃ t, exec i s = .next t ∧ (t.getReg 0xF#4).toNat = flag ∧
      (x ≠ 0xF#4 → (t.getReg x).toNat = result) ∧
      ChangesOnly (fun p => p = .reg x ∨ p = .reg 0xF#4) s t :=
  ⟨_, hexec, (setResultFlag_flag_toNat s x v c).trans hc,
    fun h => (congrArg BitVec.toNat (setResultFlag_result s v c h)).trans hv,
    changesOnly_setResultFlag s x v c⟩

/-- The carry as a number (R148). -/
theorem carry_toNat (a b : Byte) : (carry a b).toNat = if a.toNat + b.toNat > 255 then 1 else 0 :=
  Bool.cond_decide _ 1 0

/-- The no-borrow flag as a number (R149, R151). -/
theorem noBorrow_toNat (a b : Byte) : (noBorrow a b).toNat = if a.toNat ≥ b.toNat then 1 else 0 :=
  Bool.cond_decide _ 1 0

/-- A difference of bytes wraps at 256. -/
theorem byte_sub_toNat (a b : Byte) : (a - b).toNat = (256 + a.toNat - b.toNat) % 256 := by
  have := b.isLt
  rw [BitVec.toNat_sub]
  omega

/-- The low bit is the remainder by 2 (R150). -/
theorem lowBit_toNat (v : Byte) : (lowBit v).toNat = v.toNat % 2 := by
  rw [lowBit, ← BitVec.testBit_toNat, Nat.toNat_testBit, pow_zero, Nat.div_one]

/-- The high bit of a byte is its quotient by 128 (R152). -/
theorem highBit_toNat (v : Byte) : (highBit v).toNat = v.toNat / 128 := by
  have := v.isLt
  rw [highBit, ← BitVec.testBit_toNat, Nat.toNat_testBit]
  omega

/-- A shift right by one halves. -/
theorem byte_shiftRight_one_toNat (v : Byte) : (v >>> 1).toNat = v.toNat / 2 := by
  rw [BitVec.toNat_ushiftRight, Nat.shiftRight_one]

/-- A shift left by one doubles modulo 256. -/
theorem byte_shiftLeft_one_toNat (v : Byte) : (v <<< 1).toNat = v.toNat * 2 % 256 := by
  rw [BitVec.toNat_shiftLeft, Nat.shiftLeft_eq, pow_one]

/-- Settles O45, by the wrapping sum of the old values and its carry. -/
theorem addWithCarry : Obligations.AddWithCarry := fun x y _ =>
  ⟨decodeWord_encode (.addReg x y),
    exec_resultFlag rfl (carry_toNat _ _) (BitVec.toNat_add _ _)⟩

/-- Settles O46, by the wrapping difference of the old values and its no-borrow flag. -/
theorem subtractWithNoBorrow : Obligations.SubtractWithNoBorrow := fun x y _ =>
  ⟨decodeWord_encode (.subReg x y),
    exec_resultFlag rfl (noBorrow_toNat _ _) (byte_sub_toNat _ _)⟩

/-- Settles O47, by the wrapping difference the other way round. -/
theorem reverseSubtract : Obligations.ReverseSubtract := fun x y _ =>
  ⟨decodeWord_encode (.subn x y),
    exec_resultFlag rfl (noBorrow_toNat _ _) (byte_sub_toNat _ _)⟩

/-- Settles O48: the bit shifted out is the remainder of halving and the quotient of doubling. -/
theorem shiftByOne : Obligations.ShiftByOne := fun x y _ =>
  ⟨decodeWord_encode (.shr x y), decodeWord_encode (.shl x y),
    exec_resultFlag rfl (lowBit_toNat _) (byte_shiftRight_one_toNat _),
    exec_resultFlag rfl (highBit_toNat _) (byte_shiftLeft_one_toNat _)⟩

end Sys2Proof.Machine
end
